-- ==== Sys2Proof/Word.lean ====
section
/-! DEFINITION. The machine word, and its reading as a signed integer (00_scope.md R8, R10). -/

namespace Sys2Proof

/-- The contents of a register or of a memory cell: `XLEN` = 32 bits (R8, R21, R51). -/
abbrev Word := BitVec 32

/-- `sint(v)` of R10: the signed two's-complement value, in [-2^31, 2^31 - 1]. -/
abbrev sint (w : Word) : Int := w.toInt

/-- `bits32(n)` of R10: the pattern whose signed value is `n`, for `n` in [-2^31, 2^31 - 1].
The machine applies it only to integers in that range (R136). -/
abbrev bits32 (n : Int) : Word := BitVec.ofInt 32 n

end Sys2Proof
end

