-- ==== Sys2Proof/Syntax.lean ====
section
/-! DEFINITION. The instructions: one constructor for each row of spec/opcode_table.json, over the
fields that every word of format `DM` has (30_encoding.md R70 to R78). -/

namespace Sys2Proof

/-- A register index: a 4-bit field, all of whose 16 values are legal (R78). -/
abbrev RegIndex := Fin 16

/-- A predicate mask: the 4-bit set of condition flags of R76; all 16 values are legal. -/
abbrev PredMask := BitVec 4

/-- The condition flags (R27): exactly one of the four is current at any time. -/
inductive Cond where
  /-- M: negative. -/
  | m
  /-- Z: zero. -/
  | z
  /-- P: positive. -/
  | p
  /-- V: fault. -/
  | v
deriving DecidableEq, Repr

/-- The five fields of a word beside the opcode (R72). The displacement is the integer it denotes;
`Instr.wellFormed` says which integers a word can hold (R74). -/
structure Fields where
  pred   : PredMask
  target : RegIndex
  src1   : RegIndex
  src2   : RegIndex
  offset : Int
deriving DecidableEq, Repr

/-- `DecodedInstruction` of R72: the raw 6-bit opcode, legal or not, and the other five fields. -/
structure DecodedInstruction where
  opcode : BitVec 6
  fields : Fields
deriving DecidableEq, Repr

/-- The closed set of operations (R75). HALT carries its fields too: they are decoded and observed,
although they have no effect (R82). -/
inductive Instr where
  /-- HALT, opcode 0 (R175). -/
  | halt (f : Fields)
  /-- LOAD, opcode 1 (R161). -/
  | load (f : Fields)
  /-- STORE, opcode 2 (R162). -/
  | store (f : Fields)
  /-- ADD, opcode 3 (R140). -/
  | add (f : Fields)
  /-- SUB, opcode 5 (R141). -/
  | sub (f : Fields)
  /-- MUL, opcode 6 (R142). -/
  | mul (f : Fields)
  /-- DIV, opcode 7 (R143). -/
  | div (f : Fields)
deriving DecidableEq, Repr

/-- The five fields of an instruction. -/
def Instr.fields : Instr → Fields
  | .halt f => f
  | .load f => f
  | .store f => f
  | .add f => f
  | .sub f => f
  | .mul f => f
  | .div f => f

end Sys2Proof
end

