-- ==== Sys2Proof/WellFormed.lean ====
section
/-! DEFINITION. Which instruction terms an instruction word can hold (30_encoding.md R73, R74, R80). -/

namespace Sys2Proof

/-- The displacement is a signed 10-bit integer (R74). -/
def offsetFits (n : Int) : Bool := decide (-512 ≤ n) && decide (n ≤ 511)

/-- Well-formed fields. The other four fields are legal at every value of their types (R76, R78). -/
def Fields.wellFormed (f : Fields) : Bool := offsetFits f.offset

/-- A well-formed instruction: its fields fit its word; no field's validity depends on another's
value or on the opcode (R73, R80). -/
def Instr.wellFormed (i : Instr) : Bool := i.fields.wellFormed

end Sys2Proof
end

