-- ==== Sys2Proof/Decode.lean ====
section
/-! DEFINITION. The decoder and the encoder (30_encoding.md R71 to R82, R92). -/

namespace Sys2Proof

/-- Why a word is no instruction. The decoder of R72 itself never fails (R73); this is the verdict
of the control logic on the opcode it gives (R80, R104). -/
inductive DecodeError where
  /-- The opcode field is 4 or 8..63 (R80). -/
  | illegalOpcode (opcode : BitVec 6)
deriving DecidableEq, Repr

/-- `sext_10` of R10, the reading of the displacement field of R74. -/
def sext10 (v : BitVec 10) : Int :=
  if v.toNat < 512 then (v.toNat : Int) else (v.toNat : Int) - 1024

/-- The register index in the 4-bit field of `w` whose lowest bit is `lo` (R71, R78). -/
def regField (w : Word) (lo : Nat) : RegIndex := (w.extractLsb' lo 4).toFin

/-- `decode` of R72: pure and total on every 32-bit pattern (R73). -/
def decodeWord (w : Word) : DecodedInstruction :=
  { opcode := w.extractLsb' 26 6
    fields :=
      { pred   := w.extractLsb' 22 4
        target := regField w 18
        src1   := regField w 14
        src2   := regField w 10
        offset := sext10 (w.extractLsb' 0 10) } }

/-! The opcode map of R75. -/

/-- Opcode of HALT. -/
def opHalt : BitVec 6 := 0
/-- Opcode of LOAD. -/
def opLoad : BitVec 6 := 1
/-- Opcode of STORE. -/
def opStore : BitVec 6 := 2
/-- Opcode of ADD. -/
def opAdd : BitVec 6 := 3
/-- Opcode of SUB. -/
def opSub : BitVec 6 := 5
/-- Opcode of MUL. -/
def opMul : BitVec 6 := 6
/-- Opcode of DIV. -/
def opDiv : BitVec 6 := 7

/-! The class signals that the control logic derives from the opcode (R92). -/

/-- `is_halt`: opcode 0. -/
def isHalt (op : BitVec 6) : Bool := decide (op = opHalt)
/-- `is_load`: opcode 1. -/
def isLoad (op : BitVec 6) : Bool := decide (op = opLoad)
/-- `is_store`: opcode 2. -/
def isStore (op : BitVec 6) : Bool := decide (op = opStore)
/-- `is_alu`: opcodes 3, 5, 6 and 7. -/
def isAlu (op : BitVec 6) : Bool :=
  decide (op = opAdd) || decide (op = opSub) || decide (op = opMul) || decide (op = opDiv)
/-- `is_illegal`: every other opcode, that is 4 and 8..63 (R80). -/
def isIllegal (op : BitVec 6) : Bool := !(isHalt op || isLoad op || isStore op || isAlu op)

/-- The control logic's classification of a decoded word (R75, R80, R104): only the opcode selects. -/
def classifyOpcode (d : DecodedInstruction) : Except DecodeError Instr :=
  if d.opcode = opHalt then .ok (.halt d.fields)
  else if d.opcode = opLoad then .ok (.load d.fields)
  else if d.opcode = opStore then .ok (.store d.fields)
  else if d.opcode = opAdd then .ok (.add d.fields)
  else if d.opcode = opSub then .ok (.sub d.fields)
  else if d.opcode = opMul then .ok (.mul d.fields)
  else if d.opcode = opDiv then .ok (.div d.fields)
  else .error (.illegalOpcode d.opcode)

/-- The instruction that a word is, or the name of the reason why it is none. -/
def decode (w : Word) : Except DecodeError Instr := classifyOpcode (decodeWord w)

/-- The opcode of an instruction (R75). -/
def Instr.opcode : Instr → BitVec 6
  | .halt _ => opHalt
  | .load _ => opLoad
  | .store _ => opStore
  | .add _ => opAdd
  | .sub _ => opSub
  | .mul _ => opMul
  | .div _ => opDiv

/-- `encode` of R79, on the six fields in the order of R71, most significant first. The displacement
is taken modulo 1024. -/
def encodeWord (d : DecodedInstruction) : Word :=
  d.opcode ++ d.fields.pred ++ BitVec.ofFin (w := 4) d.fields.target
    ++ BitVec.ofFin (w := 4) d.fields.src1 ++ BitVec.ofFin (w := 4) d.fields.src2
    ++ BitVec.ofInt 10 d.fields.offset

/-- The word of an instruction. -/
def encode (i : Instr) : Word := encodeWord { opcode := i.opcode, fields := i.fields }

/-- The word whose lowest `nbits` bits are those of `w`, bit 0 the least significant, the others 0
(the numbering of spec/opcode_table.json, which is that of R9). -/
def tableWord (nbits w : Nat) : Word := BitVec.ofNat 32 (w % 2 ^ nbits)

/-- What the decoder reads from a word given as the opcode table gives it. A cell holds the whole
word, so there is no byte order to apply (R58). -/
def decodeTableWord (nbits w : Nat) : Option Instr :=
  match decode (tableWord nbits w) with
  | .ok i => some i
  | .error _ => none

end Sys2Proof
end

