-- ==== Sys2Proof/Config.lean ====
section
/-! DEFINITION. What an implementation fixes: the parameters of 00_scope.md R8, and the one value
that memory not listed in the state reads as. -/

namespace Sys2Proof.Config

/-- The largest `MEM_SIZE` the spec admits: 2^31 - 1 (R8, R52). -/
def maxMemSize : Nat := 2 ^ 31 - 1

/-- `MEM_SIZE` of the machine that `State.reset` describes. DESIGN CHOICE (log entry 1), unsafe: R8
leaves it open. Each state carries the size of its own memory, so a statement about every state is a
statement about every size. -/
def resetMemSize : Nat := maxMemSize

/-- `COND_RESET` (R8, R36): the spec's value is Z; it admits M, Z and P, never V. -/
def condReset : Cond := .z

/-- What a cell that the state does not list reads as: 0. DESIGN CHOICE (log entry 2), unsafe at
reset only: every content of a memory can be listed, and only `State.reset` lists nothing. -/
def unlistedCell : Word := 0

end Sys2Proof.Config
end

