-- ==== Sys2Proof/Machine/State.lean ====
section
/-! DEFINITION. The state of the machine (10_state.md), the reasons why a step gives no next state,
and the state after reset (R36). -/

namespace Sys2Proof.Machine

/-- `halt_reason` (R31). -/
inductive HaltReason where
  /-- Code 0: hardware reset; the core has not run since. -/
  | reset
  /-- Code 1: a HALT instruction was fetched; the normal end. -/
  | haltInstr
  /-- Code 2: the ALU returned flag V. -/
  | arithFault
  /-- Code 3: the fetched word's opcode is not one of the seven. -/
  | illegalOpcode
  /-- Code 4: a fetch, LOAD or STORE address was outside [0, `MEM_SIZE`). -/
  | memFault
  /-- Code 5: the value while the core is Running. -/
  | running
deriving DecidableEq, Repr

/-- One record of the observation port (R103): the fetch address, the raw word and the six fields. -/
structure Observation where
  addr    : Word
  word    : Word
  decoded : DecodedInstruction
deriving DecidableEq, Repr

/-- The memory (R50 to R52): `size` is `MEM_SIZE`, and `cells` lists the cells, addressed by word,
that do not hold `Config.unlistedCell`. `Memory.wf` is its canonical form. -/
structure Memory where
  size  : Nat
  cells : List (Nat × Word)
deriving DecidableEq, Repr

/-- The machine state (R20). Register 0 holds no storage (R22). -/
structure State where
  /-- `x[1]` to `x[14]`, in this order (R21). -/
  regs : Vector Word 14
  /-- `x[15]`, the program counter (R24). -/
  pc : Word
  /-- The condition register (R27). -/
  cond : Cond
  /-- The halt latch (R30). -/
  halted : Bool
  /-- The reason code (R31). -/
  haltReason : HaltReason
  /-- The memory that the core sees (R20, R50). -/
  mem : Memory
  /-- The records put on the observation port so far, oldest first (R103; log entry 4). The model's
  own field: the port is an output, not state of the core (R35). -/
  trace : List Observation
deriving DecidableEq, Repr

/-- Why a step of this machine gives no next state. -/
inductive Fault where
  /-- Raised by `step` when the halt latch is set: a halted core performs no step (R12, R114). Safe:
  the hardware makes no step there either. -/
  | coreHalted
deriving DecidableEq, Repr

/-- Why the model gives no meaning. -/
inductive Refusal where
  /-- Raised by an arm of `exec` whose instruction has no meaning yet; no arm of this model does. Safe. -/
  | notModelled (mnemonic : String)
  /-- Raised by the host's write to memory while the core is Running: outside the spec (R62; U12 of
  93_implementation_defined.md says to refuse it). Safe. -/
  | secondWriter
  /-- Raised by the host's write to an address outside [0, `MEM_SIZE`), which the Memory turns away
  without changing a cell (R54, R55); what the host is told is not given. Safe. -/
  | hostAddressOutOfRange
deriving DecidableEq, Repr

/-- The state that hardware reset leaves (R36, R230, R231) over a given memory and a given history
of the observation port, neither of which it touches. -/
def State.afterReset (mem : Memory) (trace : List Observation) : State :=
  { regs := Vector.replicate 14 0
    pc := 0
    cond := Config.condReset
    halted := true
    haltReason := .reset
    mem := mem
    trace := trace }

/-- The machine right after reset, nothing loaded and nothing observed yet. -/
def State.reset : State := State.afterReset ⟨Config.resetMemSize, []⟩ []

end Sys2Proof.Machine
end

