-- ==== Sys2Proof/Machine/Ops.lean ====
section
/-! DEFINITION. The named operations over registers and memory, and the one way in which every
exceptional event acts: the halt latch (60_exceptions.md R203). -/

namespace Sys2Proof.Machine

/-! Registers. -/

/-- The pattern in register `i` (R21): register 0 reads as zero (R22), register 15 is the program
counter (R24). -/
def State.readReg (s : State) (i : RegIndex) : Word :=
  if i.val = 0 then 0
  else if h : i.val - 1 < 14 then s.regs[i.val - 1]
  else s.pc

/-- `x[i]` of R11: the signed value of register `i`. -/
def State.x (s : State) (i : RegIndex) : Int := sint (s.readReg i)

/-- A write of register `i`: discarded for register 0 (R22), a write of the program counter for
register 15 (R24). -/
def State.writeReg (s : State) (i : RegIndex) (v : Word) : State :=
  if i.val = 0 then s
  else if h : i.val - 1 < 14 then { s with regs := s.regs.set (i.val - 1) v }
  else { s with pc := v }

/-- The program counter increment (R111). It is no ALU operation: it sets no flag (R26). -/
def State.advancePc (s : State) : State := { s with pc := s.pc + 1 }

/-- A write of the condition register. -/
def State.setCond (s : State) (c : Cond) : State := { s with cond := c }

/-! Memory (20_memory.md). -/

/-- The valid addresses (R52): `0 <= a < MEM_SIZE`, the address taken as a signed integer. -/
def Memory.inRange (m : Memory) (a : Int) : Bool := decide (0 ≤ a) && decide (a < m.size)

/-- The value that a list of cells gives an address. -/
def lookupCell : List (Nat × Word) → Nat → Word
  | [], _ => Config.unlistedCell
  | (k, w) :: rest, a => if k = a then w else lookupCell rest a

/-- The list of cells with the cell at `a` set to `v`, in canonical form if the list was. -/
def insertCell : List (Nat × Word) → Nat → Word → List (Nat × Word)
  | [], a, v => if v = Config.unlistedCell then [] else [(a, v)]
  | (k, w) :: rest, a, v =>
    if a < k then
      if v = Config.unlistedCell then (k, w) :: rest else (a, v) :: (k, w) :: rest
    else if a = k then
      if v = Config.unlistedCell then rest else (a, v) :: rest
    else (k, w) :: insertCell rest a v

/-- The contents of one cell, with no bounds check. -/
def Memory.cellAt (m : Memory) (a : Nat) : Word := lookupCell m.cells a

/-- The memory with one cell set, with no bounds check. -/
def Memory.setCell (m : Memory) (a : Nat) (v : Word) : Memory :=
  { m with cells := insertCell m.cells a v }

/-- `MemRead` (R53) and `MemFetch` (R56): the cell at a valid address, none where they raise
`MemFault`. Both are the same access to the same 32 bits (R51). -/
def Memory.read (m : Memory) (a : Int) : Option Word :=
  if m.inRange a then some (m.cellAt a.toNat) else none

/-- `MemWrite` (R54): sets one cell, none where it raises `MemFault`. -/
def Memory.write (m : Memory) (a : Int) (v : Word) : Option Memory :=
  if m.inRange a then some (m.setCell a.toNat v) else none

/-- The cells listed from `lo` on are strictly rising, lie below `size`, and do not hold what an
unlisted cell reads as. -/
def cellsWf (size : Nat) : Nat → List (Nat × Word) → Bool
  | _, [] => true
  | lo, (k, w) :: rest =>
    decide (lo ≤ k) && decide (k < size) && decide (w ≠ Config.unlistedCell)
      && cellsWf size (k + 1) rest

/-- The canonical form of a memory, and the bounds of R8 and R52 on its size. -/
def Memory.wf (m : Memory) : Bool :=
  decide (1 ≤ m.size) && decide (m.size ≤ Config.maxMemSize) && cellsWf m.size 0 m.cells

/-! Exceptional events, and the one way on. -/

/-- `raise` of R203, and HALT's own halt (R175): the halt latch is set with a reason and the step
ends. No state is saved, no vector is read, no handler runs (R208). -/
def State.raise (s : State) (r : HaltReason) : State :=
  { s with halted := true, haltReason := r }

/-- The start event (R233): the only way on after a halt; it restores and repairs nothing (R209,
R235), and is ignored while the core is Running. -/
def State.start (s : State) (a : Word) : State :=
  if s.halted then { s with pc := a, halted := false, haltReason := .running } else s

/-- Hardware reset of a machine in any state (R230): it touches neither the memory nor what has
already been observed. -/
def State.hardwareReset (s : State) : State := State.afterReset s.mem s.trace

end Sys2Proof.Machine
end

