-- ==== Sys2Proof/Machine/Control.lean ====
section
/-! DEFINITION. HALT and the illegal opcodes (43_halt_and_illegal.md R175, R176). -/

namespace Sys2Proof.Machine

/-- HALT (R175): not predicated; no field has an effect (R82), and nothing but the halt latch and
its reason changes. -/
def execHalt (_f : Fields) (s : State) : Host.Outcome State Fault Refusal :=
  .next (s.raise .haltInstr)

/-- A word with an illegal opcode (R176): not predicated; the condition becomes V, and the program
counter is not advanced. -/
def takeIllegalOpcode (s : State) : State := (s.setCond .v).raise .illegalOpcode

end Sys2Proof.Machine
end

