-- ==== Sys2Proof/Machine/Cycle.lean ====
section
/-! DEFINITION. The step around the instruction's own meaning (40_step_and_predication.md R101,
sub-steps 1 to 3): fetch, decode, observe. -/

namespace Sys2Proof.Machine

/-- The fetch of R102: the word at the signed value of `x[15]`, none outside [0, `MEM_SIZE`). -/
def State.fetch (s : State) : Option Word := s.mem.read (sint s.pc)

/-- The record that R103 puts on the observation port for the word `w` fetched in state `s`. -/
def observation (s : State) (w : Word) : Observation :=
  { addr := s.pc, word := w, decoded := decodeWord w }

/-- `Observe` of R103, before any mutation. -/
def State.observe (s : State) (w : Word) : State :=
  { s with trace := s.trace ++ [observation s w] }

/-- One step (R101), `run` being the meaning of the instructions. A halted core performs none (R114);
a fetch fault halts with no record and no other change (R102); an illegal word is observed, then
halts (R176). -/
def cycle (run : Instr → State → Host.Outcome State Fault Refusal) (s : State) :
    Host.Outcome State Fault Refusal :=
  if s.halted then .fault .coreHalted
  else
    match s.fetch with
    | none => .next (s.raise .memFault)
    | some w =>
      match decode w with
      | .ok i => run i (s.observe w)
      | .error _ => .next (takeIllegalOpcode (s.observe w))

/-- The address that the next fetch uses once the host has started the core: the program counter
where it is a valid address, else 0, the conventional entry point (R57, R232). -/
def State.entryAddress (s : State) : Word :=
  if s.mem.inRange (sint s.pc) then s.pc else 0

/-- The host's load of one word at the entry address, and the start event there (R233, R234): what
it takes for the very next step to run that word (log entry 5). -/
def State.placeWord (s : State) (w : Word) : State :=
  { s with
    pc := s.entryAddress
    halted := false
    haltReason := .running
    mem := s.mem.setCell s.entryAddress.toNat w }

end Sys2Proof.Machine
end

