-- ==== Sys2Proof/Machine/Flags.lean ====
section
/-! DEFINITION. The flags: their codes (10_state.md R28, R31), the classification of a result
(41_alu_arithmetic.md R132), the range check (R136) and the predicate test (R105). -/

namespace Sys2Proof.Machine

/-- The one-hot code of the condition register and of the bits of a predicate mask (R28, R76). -/
def condCode : Cond → BitVec 4
  | .m => 0b0001
  | .z => 0b0010
  | .p => 0b0100
  | .v => 0b1000

/-- The 3-bit code of the halt reason (R31). -/
def haltReasonCode : HaltReason → BitVec 3
  | .reset => 0
  | .haltInstr => 1
  | .arithFault => 2
  | .illegalOpcode => 3
  | .memFault => 4
  | .running => 5

/-- The mask M|Z|P (R77): it does not contain V. -/
def maskAlways : PredMask := 0b0111

/-- The empty mask (R77). -/
def maskNever : PredMask := 0

/-- The predicate test (R105): the current condition is one of the flags in the mask. -/
def predicateAdmits (c : Cond) (pred : PredMask) : Bool := decide (condCode c &&& pred ≠ 0)

/-- The flag of a result (R132). -/
def flagOf (t : Int) : Cond :=
  if t < 0 then .m else if t = 0 then .z else .p

/-- The range of a register (R10, R136). -/
def fitsWord (t : Int) : Bool := decide (-2 ^ 31 ≤ t) && decide (t ≤ 2 ^ 31 - 1)

/-- The last lines of R131: an exact result outside the range is overflow, (0, V) (R136); any other
is returned with the flag of its sign (R132). -/
def checkedResult (t : Int) : Int × Cond :=
  if fitsWord t then (t, flagOf t) else (0, .v)

end Sys2Proof.Machine
end

