-- ==== Sys2Proof/Machine/Alu.lean ====
section
/-! DEFINITION. The ALU (41_alu_arithmetic.md R130 to R139): a pure function, total on every opcode. -/

namespace Sys2Proof.Machine

/-- `floordiv` of R10: the quotient rounded toward minus infinity (R134). The ALU uses it only for
`b ≠ 0`. -/
def floordiv (a b : Int) : Int := Int.fdiv a b

/-- `ALU(op, a, b)` of R131, every row: the two unreachable ones too (HALT, R135; an operation
outside the table, R138). -/
def alu (op : BitVec 6) (a b : Int) : Int × Cond :=
  if op = opAdd ∨ op = opLoad ∨ op = opStore then checkedResult (a + b)
  else if op = opSub then checkedResult (a - b)
  else if op = opMul then checkedResult (a * b)
  else if op = opDiv then
    if b = 0 then (0, .v) else checkedResult (floordiv a b)
  else if op = opHalt then (0, .z)
  else (0, .v)

end Sys2Proof.Machine
end

