-- ==== Sys2Proof/Machine/Operands.lean ====
section
/-! DEFINITION. The operands (40_step_and_predication.md R107, R108), and the sub-steps that the six
predicated instructions share (R101, sub-steps 4 to 7). -/

namespace Sys2Proof.Machine

/-- Operand 1 (R107): the value of `x[src1]`. -/
def operand1 (f : Fields) (s : State) : Int := s.x f.src1

/-- Operand 2 (R108): `x[src2] + offset`, exact, with no check of its own. -/
def operand2 (f : Fields) (s : State) : Int := s.x f.src2 + f.offset

/-- The effective address of LOAD and STORE (R160). -/
def effectiveAddress (f : Fields) (s : State) : Int := operand1 f s + operand2 f s

/-- Sub-steps 4 to 7 of R101 for the operation `op`, then `writeBack` on the ALU result: an excluded
instruction is skipped (R106); the condition is updated (R109); flag V halts before the program
counter moves (R110); the increment comes before the write-back (R111). -/
def predicated (op : BitVec 6) (f : Fields) (writeBack : Int → State → State) (s : State) : State :=
  if predicateAdmits s.cond f.pred then
    let out := alu op (operand1 f s) (operand2 f s)
    let s1 := s.setCond out.2
    if out.2 = .v then s1.raise .arithFault else writeBack out.1 s1.advancePc
  else s.advancePc

end Sys2Proof.Machine
end

