-- ==== Sys2Proof/Machine/Arith.lean ====
section
/-! DEFINITION. The arithmetic instructions (41_alu_arithmetic.md R140 to R143). -/

namespace Sys2Proof.Machine

/-- The write-back of ADD, SUB, MUL and DIV (R112): the ALU result into `x[target]`. -/
def writeResult (f : Fields) (r : Int) (s : State) : State := s.writeReg f.target (bits32 r)

/-- ADD (R140). -/
def execAdd (f : Fields) (s : State) : Host.Outcome State Fault Refusal :=
  .next (predicated opAdd f (writeResult f) s)

/-- SUB (R141). -/
def execSub (f : Fields) (s : State) : Host.Outcome State Fault Refusal :=
  .next (predicated opSub f (writeResult f) s)

/-- MUL (R142). -/
def execMul (f : Fields) (s : State) : Host.Outcome State Fault Refusal :=
  .next (predicated opMul f (writeResult f) s)

/-- DIV (R143). -/
def execDiv (f : Fields) (s : State) : Host.Outcome State Fault Refusal :=
  .next (predicated opDiv f (writeResult f) s)

end Sys2Proof.Machine
end

