-- ==== Sys2Proof/Machine/LoadStore.lean ====
section
/-! DEFINITION. The memory instructions (42_load_store.md R160 to R164). -/

namespace Sys2Proof.Machine

/-- The write-back of LOAD (R161): the cell at the effective address into `x[target]`; the read is
made, with its bounds check, for target 0 too. -/
def loadAccess (f : Fields) (ea : Int) (s : State) : State :=
  match s.mem.read ea with
  | some v => s.writeReg f.target v
  | none => s.raise .memFault

/-- The write-back of STORE (R162): `x[target]`, read after the increment (R113), into the cell at
the effective address. -/
def storeAccess (f : Fields) (ea : Int) (s : State) : State :=
  match s.mem.write ea (s.readReg f.target) with
  | some m => { s with mem := m }
  | none => s.raise .memFault

/-- LOAD (R161, R163, R164). -/
def execLoad (f : Fields) (s : State) : Host.Outcome State Fault Refusal :=
  .next (predicated opLoad f (loadAccess f) s)

/-- STORE (R162, R163, R164). -/
def execStore (f : Fields) (s : State) : Host.Outcome State Fault Refusal :=
  .next (predicated opStore f (storeAccess f) s)

end Sys2Proof.Machine
end

