-- ==== Sys2Proof/Machine/Events.lean ====
section
/-! DEFINITION. What the outside world can do to the machine (00_scope.md R6, 70_reset_and_hazards.md
R230 to R234), beside letting it step. -/

namespace Sys2Proof.Machine

/-- The external events (R206: there are no others), and the core's own step. -/
inductive Event where
  /-- The core performs one step (R101). -/
  | coreStep
  /-- Hardware reset (R230). -/
  | hardwareReset
  /-- The start event with its address (R233). -/
  | start (address : Word)
  /-- The host stores a word into a cell, while the core is Halted (R6, R55, R234). -/
  | hostWrite (address : Int) (word : Word)
deriving DecidableEq, Repr

/-- The host's write of a cell (R55): only while the core is Halted, since no other writer exists
during a run (R62). -/
def hostWriteCell (a : Int) (w : Word) (s : State) : Host.Outcome State Fault Refusal :=
  if s.halted then
    match s.mem.write a w with
    | some m => .next { s with mem := m }
    | none => .refused .hostAddressOutOfRange
  else .refused .secondWriter

/-- What an event makes of a state (R100). -/
def react (e : Event) (s : State) : Host.Outcome State Fault Refusal :=
  match e with
  | .coreStep => step s
  | .hardwareReset => .next s.hardwareReset
  | .start a => .next (s.start a)
  | .hostWrite a w => hostWriteCell a w s

end Sys2Proof.Machine
end

