-- ==== Sys2Proof/Safety.lean ====
section
/-! DEFINITION. What a good state and a good end of a run are, and the terms in which statements
about an instruction's effect are made. -/

namespace Sys2Proof.Machine

/-- The invariant of the machine. -/
structure State.Inv (s : State) : Prop where
  /-- The memory is in its canonical form, and its size is one the spec admits (R52). -/
  mem_wf : s.mem.wf = true
  /-- The core is Running exactly when the reason code says so (R30, R31). -/
  latch_agrees : s.halted = false ↔ s.haltReason = .running
  /-- An arithmetic fault leaves the condition V (R200). -/
  arithFault_leaves_v : s.haltReason = .arithFault → s.cond = .v
  /-- An illegal opcode leaves the condition V (R200). -/
  illegalOpcode_leaves_v : s.haltReason = .illegalOpcode → s.cond = .v
  /-- Every record is of a successful fetch, and shows the fields of its word (R103). -/
  trace_faithful : ∀ r ∈ s.trace,
    s.mem.inRange (sint r.addr) = true ∧ r.decoded = decodeWord r.word

/-- The states that the events of `react` lead to from the state after reset over any memory: the
size and the initial contents are arguments (R8, R234). -/
inductive Reachable : State → Prop where
  | powerOn (mem : Memory) (h : mem.wf = true) : Reachable (State.afterReset mem [])
  | event (e : Event) (s t : State) (hs : Reachable s) (ht : react e s = .next t) : Reachable t

/-- The normal end of a run (R210). -/
def EndedNormally (s : State) : Prop := s.halted = true ∧ s.haltReason = .haltInstr

/-- A run that has gone wrong (R12, R210). -/
def WentWrong (s : State) : Prop :=
  s.halted = true ∧
    (s.haltReason = .arithFault ∨ s.haltReason = .illegalOpcode ∨ s.haltReason = .memFault)

/-- `t` is `s` after an executed instruction that wrote `r` to its register `target` and left the
condition `c`: everything else is as before, but for the program counter, which is the written value
if it is the target and the next address otherwise. -/
structure WroteRegister (s t : State) (target : RegIndex) (r : Int) (c : Cond) : Prop where
  written : target ≠ 0 → t.x target = r
  zero    : t.x 0 = 0
  pc_next : target ≠ 15 → t.pc = s.pc + 1
  others  : ∀ i : RegIndex, i ≠ target → i ≠ 15 → t.readReg i = s.readReg i
  cond    : t.cond = c
  memory  : t.mem = s.mem
  latch   : t.halted = s.halted ∧ t.haltReason = s.haltReason
  records : t.trace = s.trace

/-- `t` is `s` after an executed instruction that set the cell at `ea` to `v` and left the condition
`c`: no other cell and no register but the program counter has changed. -/
structure WroteCell (s t : State) (ea : Int) (v : Word) (c : Cond) : Prop where
  written : t.mem.cellAt ea.toNat = v
  others  : ∀ a : Nat, (a : Int) ≠ ea → t.mem.cellAt a = s.mem.cellAt a
  size    : t.mem.size = s.mem.size
  pc_next : t.pc = s.pc + 1
  regs    : ∀ i : RegIndex, i ≠ 15 → t.readReg i = s.readReg i
  cond    : t.cond = c
  latch   : t.halted = s.halted ∧ t.haltReason = s.haltReason
  records : t.trace = s.trace

/-- `q` is the floor of the rational `a / b` (R10): the greatest integer with `q * b <= a` where
`b > 0`, and with `q * b >= a` where `b < 0`. -/
def IsFloorQuotient (a b q : Int) : Prop :=
  (0 < b ∧ q * b ≤ a ∧ ∀ n : Int, n * b ≤ a → n ≤ q) ∨
    (b < 0 ∧ a ≤ q * b ∧ ∀ n : Int, a ≤ n * b → n ≤ q)

/-- The sign of `t` as the machine classifies it (R132). -/
def SignIs (t : Int) (c : Cond) : Prop :=
  (c = .m ∧ t < 0) ∨ (c = .z ∧ t = 0) ∨ (c = .p ∧ 0 < t)

end Sys2Proof.Machine
end

