-- ==== Sys2Proof/Certificates/Slice0/Obligations.lean ====
section
/-! DEFINITION. The statements for the provers. Each docstring names the rules of spec/ behind it. -/

open Sys2Proof Sys2Proof.Machine

/-! ### The step -/

/-- R101, R103: when the word at the program counter decodes to an instruction, a Running core puts
one record on the observation port and then runs the meaning of that instruction. -/
def Obligations.StepRunsDecodedInstruction : Prop :=
  ∀ (s : State) (w : Word) (i : Instr),
    s.halted = false → s.fetch = some w → decode w = .ok i →
      step s = exec i
        { s with trace := s.trace ++ [{ addr := s.pc, word := w, decoded := decodeWord w }] }

/-- R102: the fetch reads the word at the address held in register 15; outside [0, `MEM_SIZE`) the
core halts with `MemFault`, and nothing else changes, no record being emitted. -/
def Obligations.FetchReadsAtPcOrHalts : Prop :=
  ∀ s : State,
    (0 ≤ sint s.pc ∧ sint s.pc < s.mem.size →
      s.fetch = some (s.mem.cellAt (sint s.pc).toNat)) ∧
    (s.halted = false → ¬ (0 ≤ sint s.pc ∧ sint s.pc < s.mem.size) →
      step s = .next { s with halted := true, haltReason := .memFault })

/-- R80, R176: a word is illegal exactly when its opcode field is 4 or 8..63; it is not predicated;
the condition becomes V, the core halts with `IllegalOpcode`, and nothing else changes but the
record of the fetch. -/
def Obligations.IllegalWordsHaltTheCore : Prop :=
  (∀ w : Word, (∃ e, decode w = .error e) ↔ (w.toNat / 2 ^ 26 = 4 ∨ 8 ≤ w.toNat / 2 ^ 26)) ∧
  (∀ w : Word, w.msb = true → ∃ e, decode w = .error e) ∧
  ∀ (s : State) (w : Word), s.halted = false → s.fetch = some w →
    (w.toNat / 2 ^ 26 = 4 ∨ 8 ≤ w.toNat / 2 ^ 26) →
      step s = .next
        { s with
          cond := .v
          halted := true
          haltReason := .illegalOpcode
          trace := s.trace ++ [{ addr := s.pc, word := w, decoded := decodeWord w }] }

/-- R12, R114: a Running core always takes its step, to a state that is Running or that has halted
with one of the four reasons a step can give; a Halted core takes none. -/
def Obligations.CoreStepsExactlyWhileRunning : Prop :=
  ∀ s : State,
    (s.halted = false → ∃ t, step s = .next t ∧
      (t.halted = false ∨ EndedNormally t ∨ WentWrong t)) ∧
    (s.halted = true → ∀ t, step s ≠ .next t)

/-- R103: every step whose fetch succeeded adds one record, of the pre-step program counter, the raw
word and its six fields; a step whose fetch faulted adds none. -/
def Obligations.OneRecordPerSuccessfulFetch : Prop :=
  ∀ s t : State, step s = .next t →
    (s.fetch = none → t.trace = s.trace) ∧
    (∀ w, s.fetch = some w →
      t.trace = s.trace ++ [{ addr := s.pc, word := w, decoded := decodeWord w }])

/-- R103, R213: no rule depends on the observation port. Two machines that differ only in what they
have put on it so far take the same step, and put the same records on it. -/
def Obligations.ObservationPortIsInert : Prop :=
  ∀ (s t : State) (other : List Observation), step s = .next t →
    ∃ new, t.trace = s.trace ++ new ∧
      step { s with trace := other } = .next { t with trace := other ++ new }

/-! ### Encoding -/

/-- R72: the six fields, as numbers, of any word. -/
def Obligations.DecoderReadsTheSixFields : Prop :=
  ∀ w : Word,
    (decodeWord w).opcode.toNat = w.toNat / 2 ^ 26 ∧
    (decodeWord w).fields.pred.toNat = w.toNat / 2 ^ 22 % 16 ∧
    (decodeWord w).fields.target.val = w.toNat / 2 ^ 18 % 16 ∧
    (decodeWord w).fields.src1.val = w.toNat / 2 ^ 14 % 16 ∧
    (decodeWord w).fields.src2.val = w.toNat / 2 ^ 10 % 16 ∧
    (decodeWord w).fields.offset =
      if w.toNat % 1024 < 512 then ((w.toNat % 1024 : Nat) : Int)
      else ((w.toNat % 1024 : Nat) : Int) - 1024

/-- R79: the encoder's formula, and both round trips on the six fields. -/
def Obligations.WordsAndFieldsRoundTrip : Prop :=
  (∀ d : DecodedInstruction, d.fields.wellFormed = true →
    (encodeWord d).toNat =
        d.opcode.toNat * 2 ^ 26 + d.fields.pred.toNat * 2 ^ 22 + d.fields.target.val * 2 ^ 18
          + d.fields.src1.val * 2 ^ 14 + d.fields.src2.val * 2 ^ 10
          + (d.fields.offset % 1024).toNat ∧
      decodeWord (encodeWord d) = d) ∧
  ∀ w : Word, encodeWord (decodeWord w) = w

/-- R75, R79: decoding the word of a well-formed instruction gives it back, for every instruction
and every operand; and a word that decodes to an instruction is that instruction's word. -/
def Obligations.InstructionsRoundTrip : Prop :=
  (∀ i : Instr, i.wellFormed = true → decode (encode i) = .ok i) ∧
  ∀ (w : Word) (i : Instr), decode w = .ok i → i.wellFormed = true ∧ encode i = w

/-- R71, R75: one word of each instruction, written out from its encoding. -/
def Obligations.SampleWordsDecode : Prop :=
  decode 0b000000_0111_0000_0000_0000_0000000000 = .ok (.halt ⟨7, 0, 0, 0, 0⟩) ∧
  decode 0b000001_0111_0010_0001_0011_1111111111 = .ok (.load ⟨7, 2, 1, 3, -1⟩) ∧
  decode 0b000010_0111_0001_0000_0000_0000001010 = .ok (.store ⟨7, 1, 0, 0, 10⟩) ∧
  decode 0b000011_0100_1111_1111_0000_1111111110 = .ok (.add ⟨4, 15, 15, 0, -2⟩) ∧
  decode 0b000101_0010_0010_0011_0100_1111111111 = .ok (.sub ⟨2, 2, 3, 4, -1⟩) ∧
  decode 0b000110_0000_0111_1000_1001_0111111111 = .ok (.mul ⟨0, 7, 8, 9, 511⟩) ∧
  decode 0b000111_1001_1110_1101_1100_1000000000 = .ok (.div ⟨9, 14, 13, 12, -512⟩)

/-- R92: for every opcode exactly one of the five class signals is true. -/
def Obligations.ExactlyOneClassSignal : Prop :=
  ∀ op : BitVec 6,
    [isHalt op, isLoad op, isStore op, isAlu op, isIllegal op].count true = 1

/-! ### Predication -/

/-- R105 (its truth table), R77: one bit of the mask for each condition; ALWAYS admits all but V,
NEVER admits none. -/
def Obligations.PredicateTestFollowsTruthTable : Prop :=
  (∀ pred : PredMask,
    predicateAdmits .m pred = pred.getLsbD 0 ∧ predicateAdmits .z pred = pred.getLsbD 1 ∧
      predicateAdmits .p pred = pred.getLsbD 2 ∧ predicateAdmits .v pred = pred.getLsbD 3) ∧
  ∀ c : Cond, (predicateAdmits c maskAlways = true ↔ c ≠ .v) ∧ predicateAdmits c maskNever = false

/-- R106: the complete effect of a skipped instruction, for each of the six instructions that are
predicated. -/
def Obligations.SkippedInstructionOnlyAdvancesPc : Prop :=
  ∀ (i : Instr) (s : State), (∀ f, i ≠ .halt f) →
    predicateAdmits s.cond i.fields.pred = false → exec i s = .next { s with pc := s.pc + 1 }

/-- R235: a core whose condition is V skips every word that has the predicate ALWAYS and one of the
six predicated opcodes. -/
def Obligations.AlwaysIsSkippedWhileConditionIsV : Prop :=
  ∀ (s : State) (w : Word), s.halted = false → s.cond = .v → s.fetch = some w →
    w.toNat / 2 ^ 26 ∈ [1, 2, 3, 5, 6, 7] → w.toNat / 2 ^ 22 % 16 = 7 →
      step s = .next
        { s with
          pc := s.pc + 1
          trace := s.trace ++ [{ addr := s.pc, word := w, decoded := decodeWord w }] }

/-! ### The ALU -/

/-- R131: the operation table, every row, with the range check and the flag of the sign. -/
def Obligations.AluOperationTable : Prop :=
  (∀ (op : BitVec 6) (a b t : Int),
    ((op = 3 ∨ op = 1 ∨ op = 2) ∧ t = a + b) ∨ (op = 5 ∧ t = a - b) ∨ (op = 6 ∧ t = a * b) ∨
        (op = 7 ∧ IsFloorQuotient a b t) →
      (-2 ^ 31 ≤ t ∧ t ≤ 2 ^ 31 - 1 → ∃ c, SignIs t c ∧ alu op a b = (t, c)) ∧
      (t < -2 ^ 31 ∨ 2 ^ 31 - 1 < t → alu op a b = (0, .v))) ∧
  (∀ a : Int, alu 7 a 0 = (0, .v)) ∧
  (∀ a b : Int, alu 0 a b = (0, .z)) ∧
  ∀ (op : BitVec 6) (a b : Int), op = 4 ∨ 8 ≤ op.toNat → alu op a b = (0, .v)

/-- R130, R132: whatever the operands, the result is in the range of a register, and the flag is the
sign of the result, or V with the result 0. -/
def Obligations.AluResultFitsAndFlagIsItsSign : Prop :=
  ∀ (op : BitVec 6) (a b : Int),
    (-2 ^ 31 ≤ (alu op a b).1 ∧ (alu op a b).1 ≤ 2 ^ 31 - 1) ∧
    (SignIs (alu op a b).1 (alu op a b).2 ∨ alu op a b = (0, .v))

/-- R136 (its case of DIV): a division by other than zero overflows for one pair of operands only. -/
def Obligations.DivisionOverflowsForOnePairOnly : Prop :=
  ∀ a b : Int, -2 ^ 31 ≤ a → a ≤ 2 ^ 31 - 1 → b ≠ 0 →
    ((alu opDiv a b).2 = .v ↔ a = -2 ^ 31 ∧ b = -1)

/-! ### The arithmetic instructions -/

/-- R140: ADD. -/
def Obligations.AddWritesTheSumOrFaults : Prop :=
  (∀ w : Word, w.toNat / 2 ^ 26 = 3 → decode w = .ok (.add (decodeWord w).fields)) ∧
  ∀ (f : Fields) (s : State) (t : Int), predicateAdmits s.cond f.pred = true →
    t = s.x f.src1 + (s.x f.src2 + f.offset) →
    (t < -2 ^ 31 ∨ 2 ^ 31 - 1 < t → exec (.add f) s =
      .next { s with cond := .v, halted := true, haltReason := .arithFault }) ∧
    (-2 ^ 31 ≤ t ∧ t ≤ 2 ^ 31 - 1 → ∃ c u, SignIs t c ∧ exec (.add f) s = .next u ∧
      WroteRegister s u f.target t c)

/-- R141: SUB; the displacement is subtracted too. -/
def Obligations.SubWritesTheDifferenceOrFaults : Prop :=
  (∀ w : Word, w.toNat / 2 ^ 26 = 5 → decode w = .ok (.sub (decodeWord w).fields)) ∧
  ∀ (f : Fields) (s : State) (t : Int), predicateAdmits s.cond f.pred = true →
    t = s.x f.src1 - (s.x f.src2 + f.offset) →
    (t < -2 ^ 31 ∨ 2 ^ 31 - 1 < t → exec (.sub f) s =
      .next { s with cond := .v, halted := true, haltReason := .arithFault }) ∧
    (-2 ^ 31 ≤ t ∧ t ≤ 2 ^ 31 - 1 → ∃ c u, SignIs t c ∧ exec (.sub f) s = .next u ∧
      WroteRegister s u f.target t c)

/-- R142: MUL; only the full exact product is tested. -/
def Obligations.MulWritesTheProductOrFaults : Prop :=
  (∀ w : Word, w.toNat / 2 ^ 26 = 6 → decode w = .ok (.mul (decodeWord w).fields)) ∧
  ∀ (f : Fields) (s : State) (t : Int), predicateAdmits s.cond f.pred = true →
    t = s.x f.src1 * (s.x f.src2 + f.offset) →
    (t < -2 ^ 31 ∨ 2 ^ 31 - 1 < t → exec (.mul f) s =
      .next { s with cond := .v, halted := true, haltReason := .arithFault }) ∧
    (-2 ^ 31 ≤ t ∧ t ≤ 2 ^ 31 - 1 → ∃ c u, SignIs t c ∧ exec (.mul f) s = .next u ∧
      WroteRegister s u f.target t c)

/-- R143: DIV; the quotient is the floor of R10. -/
def Obligations.DivWritesTheFloorOrFaults : Prop :=
  (∀ w : Word, w.toNat / 2 ^ 26 = 7 → decode w = .ok (.div (decodeWord w).fields)) ∧
  ∀ (f : Fields) (s : State) (b t : Int), predicateAdmits s.cond f.pred = true →
    b = s.x f.src2 + f.offset →
    (b = 0 → exec (.div f) s =
      .next { s with cond := .v, halted := true, haltReason := .arithFault }) ∧
    (IsFloorQuotient (s.x f.src1) b t →
      (2 ^ 31 - 1 < t → exec (.div f) s =
        .next { s with cond := .v, halted := true, haltReason := .arithFault }) ∧
      (t ≤ 2 ^ 31 - 1 → ∃ c u, SignIs t c ∧ exec (.div f) s = .next u ∧
        WroteRegister s u f.target t c))

/-- R141 (its compare idiom): `SUB r0,rA,rB` orders two registers without writing one. -/
def Obligations.CompareBySubtractionSetsCondition : Prop :=
  ∀ (f : Fields) (s : State), predicateAdmits s.cond f.pred = true →
    f.target = 0 → f.offset = 0 →
    -2 ^ 31 ≤ s.x f.src1 - s.x f.src2 → s.x f.src1 - s.x f.src2 ≤ 2 ^ 31 - 1 →
    ∃ u, exec (.sub f) s = .next u ∧ (∀ i : RegIndex, i ≠ 15 → u.readReg i = s.readReg i) ∧
      (s.x f.src1 < s.x f.src2 → u.cond = .m) ∧ (s.x f.src1 = s.x f.src2 → u.cond = .z) ∧
      (s.x f.src2 < s.x f.src1 → u.cond = .p)

/-- The frame of ADD, SUB, MUL and DIV (R101, R110, R112), for every state in which one runs:
skipped, executed or faulting. -/
def Obligations.ArithmeticFrame : Prop :=
  ∀ (i : Instr) (f : Fields) (s t : State),
    i = .add f ∨ i = .sub f ∨ i = .mul f ∨ i = .div f → exec i s = .next t →
    (∀ r : RegIndex, r ≠ f.target → r ≠ 15 → t.readReg r = s.readReg r) ∧
    t.mem = s.mem ∧ t.trace = s.trace ∧
    (predicateAdmits s.cond f.pred = false → t.cond = s.cond) ∧
    ((t.halted = s.halted ∧ t.haltReason = s.haltReason) ∨
      (t.halted = true ∧ t.haltReason = .arithFault ∧ ∀ r : RegIndex, t.readReg r = s.readReg r))

/-! ### The memory instructions -/

/-- R161, R163, R164: LOAD. -/
def Obligations.LoadReadsTheCellOrFaults : Prop :=
  (∀ w : Word, w.toNat / 2 ^ 26 = 1 → decode w = .ok (.load (decodeWord w).fields)) ∧
  ∀ (f : Fields) (s : State) (ea : Int), predicateAdmits s.cond f.pred = true →
    ea = s.x f.src1 + (s.x f.src2 + f.offset) →
    (ea < -2 ^ 31 ∨ 2 ^ 31 - 1 < ea → exec (.load f) s =
      .next { s with cond := .v, halted := true, haltReason := .arithFault }) ∧
    (-2 ^ 31 ≤ ea ∧ ea ≤ 2 ^ 31 - 1 → ∃ c, SignIs ea c ∧
      (ea < 0 ∨ s.mem.size ≤ ea → exec (.load f) s =
        .next { s with cond := c, pc := s.pc + 1, halted := true, haltReason := .memFault }) ∧
      (0 ≤ ea ∧ ea < s.mem.size → ∃ u, exec (.load f) s = .next u ∧
        WroteRegister s u f.target (sint (s.mem.cellAt ea.toNat)) c))

/-- R162, R163, R164, R113: STORE, on a memory in canonical form; `STORE r15` stores the address of
the next instruction. -/
def Obligations.StoreWritesTheCellOrFaults : Prop :=
  (∀ w : Word, w.toNat / 2 ^ 26 = 2 → decode w = .ok (.store (decodeWord w).fields)) ∧
  ∀ (f : Fields) (s : State) (ea : Int), predicateAdmits s.cond f.pred = true →
    s.mem.wf = true → ea = s.x f.src1 + (s.x f.src2 + f.offset) →
    (ea < -2 ^ 31 ∨ 2 ^ 31 - 1 < ea → exec (.store f) s =
      .next { s with cond := .v, halted := true, haltReason := .arithFault }) ∧
    (-2 ^ 31 ≤ ea ∧ ea ≤ 2 ^ 31 - 1 → ∃ c, SignIs ea c ∧
      (ea < 0 ∨ s.mem.size ≤ ea → exec (.store f) s =
        .next { s with cond := c, pc := s.pc + 1, halted := true, haltReason := .memFault }) ∧
      (0 ≤ ea ∧ ea < s.mem.size → ∃ u, exec (.store f) s = .next u ∧
        WroteCell s u ea (if f.target = 15 then s.pc + 1 else s.readReg f.target) c))

/-- The frame of LOAD (R161, R164), for every state in which one runs. -/
def Obligations.LoadFrame : Prop :=
  ∀ (f : Fields) (s t : State), exec (.load f) s = .next t →
    (∀ r : RegIndex, r ≠ f.target → r ≠ 15 → t.readReg r = s.readReg r) ∧
    t.mem = s.mem ∧ t.trace = s.trace ∧
    (predicateAdmits s.cond f.pred = false → t.cond = s.cond) ∧
    ((t.halted = s.halted ∧ t.haltReason = s.haltReason) ∨
      (t.halted = true ∧ (t.haltReason = .arithFault ∨ t.haltReason = .memFault) ∧
        ∀ r : RegIndex, r ≠ 15 → t.readReg r = s.readReg r))

/-- The frame of STORE (R162, R164), for every state in which one runs: no cell but the one at the
effective address changes, and none at all if it is skipped or faults. -/
def Obligations.StoreFrame : Prop :=
  ∀ (f : Fields) (s t : State), exec (.store f) s = .next t →
    (∀ r : RegIndex, r ≠ 15 → t.readReg r = s.readReg r) ∧
    (∀ a : Nat, (a : Int) ≠ effectiveAddress f s → t.mem.cellAt a = s.mem.cellAt a) ∧
    t.mem.size = s.mem.size ∧ t.trace = s.trace ∧
    (predicateAdmits s.cond f.pred = false → t.cond = s.cond ∧ t.mem = s.mem) ∧
    ((t.halted = s.halted ∧ t.haltReason = s.haltReason) ∨
      (t.halted = true ∧ (t.haltReason = .arithFault ∨ t.haltReason = .memFault) ∧
        t.mem = s.mem))

/-- R163: what memory holds has no influence on the condition that LOAD and STORE leave. -/
def Obligations.MemoryContentsDoNotReachCondition : Prop :=
  ∀ (i : Instr) (f : Fields) (s t t' : State) (m : Memory), i = .load f ∨ i = .store f →
    exec i s = .next t → exec i { s with mem := m } = .next t' → t'.cond = t.cond

/-- R53, R54: a write to a valid address is read back and changes no other cell; outside
[0, `MEM_SIZE`) neither access succeeds. -/
def Obligations.MemoryReadsBackWhatWasWritten : Prop :=
  ∀ (m : Memory) (a : Int) (v : Word), m.wf = true →
    (0 ≤ a ∧ a < m.size → ∃ m', m.write a v = some m' ∧ m'.read a = some v ∧
      (∀ b : Int, b ≠ a → m'.read b = m.read b) ∧ m'.size = m.size ∧ m'.wf = true) ∧
    (a < 0 ∨ m.size ≤ a → m.write a v = none ∧ m.read a = none)

/-- R55, R62: what an executed STORE wrote is what an executed LOAD of the same address then reads. -/
def Obligations.StoreThenLoadReturnsValue : Prop :=
  ∀ (f g : Fields) (s t : State), s.mem.wf = true → predicateAdmits s.cond f.pred = true →
    0 ≤ effectiveAddress f s → effectiveAddress f s < s.mem.size →
    exec (.store f) s = .next t →
    predicateAdmits t.cond g.pred = true → effectiveAddress g t = effectiveAddress f s →
    g.target ≠ 0 →
    ∃ u, exec (.load g) t = .next u ∧
      u.readReg g.target = if f.target = 15 then s.pc + 1 else s.readReg f.target

/-- R65: the word that an executed STORE puts at the next address is the word that the next step
fetches. -/
def Obligations.StoreIsSeenByTheNextFetch : Prop :=
  ∀ (s : State) (w : Word) (f : Fields), s.mem.wf = true → s.halted = false →
    s.fetch = some w → decode w = .ok (.store f) → predicateAdmits s.cond f.pred = true →
    effectiveAddress f s = sint s.pc + 1 → sint s.pc + 1 < s.mem.size →
    ∃ t, step s = .next t ∧ t.halted = false ∧ t.pc = s.pc + 1 ∧
      t.fetch = some (if f.target = 15 then s.pc + 1 else s.readReg f.target)

/-- R54, R60: a cell changes in a step only if the word fetched is a STORE that is executed with
that cell's address as its effective address, and it then holds the register stored. -/
def Obligations.OnlyAnExecutedStoreChangesACell : Prop :=
  ∀ (s t : State) (a : Nat), s.mem.wf = true → step s = .next t →
    t.mem.cellAt a ≠ s.mem.cellAt a →
    ∃ (w : Word) (f : Fields), s.fetch = some w ∧ decode w = .ok (.store f) ∧
      predicateAdmits s.cond f.pred = true ∧ effectiveAddress f s = a ∧
      t.mem.cellAt a = if f.target = 15 then s.pc + 1 else s.readReg f.target

/-- R52: `MEM_SIZE` does not change, whatever happens. -/
def Obligations.MemorySizeNeverChanges : Prop :=
  ∀ (e : Event) (s t : State), react e s = .next t → t.mem.size = s.mem.size

/-! ### HALT, registers 0 and 15, the condition register -/

/-- R175, R82: every word below 0x04000000 is a HALT; it halts whatever its other fields and the
condition are, and changes nothing else. -/
def Obligations.HaltHaltsWhateverItsFields : Prop :=
  (∀ w : Word, w.toNat < 2 ^ 26 → decode w = .ok (.halt (decodeWord w).fields)) ∧
  ∀ (f : Fields) (s : State),
    exec (.halt f) s = .next { s with halted := true, haltReason := .haltInstr }

/-- R22: register 0 reads as zero in every state; with it as target ADD, SUB, MUL and DIV update the
condition and advance the program counter but store nothing, LOAD makes its read with the bounds
check and discards the value, and STORE writes the value 0. -/
def Obligations.ZeroRegisterDiscardsWrites : Prop :=
  (∀ s : State, s.x 0 = 0) ∧ (∀ (s : State) (v : Word), s.writeReg 0 v = s) ∧
  ∀ (f : Fields) (s : State), f.target = 0 → predicateAdmits s.cond f.pred = true →
    (∀ i : Instr, i = .add f ∨ i = .sub f ∨ i = .mul f ∨ i = .div f →
      (alu i.opcode (operand1 f s) (operand2 f s)).2 ≠ .v →
      exec i s = .next
        { s with cond := (alu i.opcode (operand1 f s) (operand2 f s)).2, pc := s.pc + 1 }) ∧
    (effectiveAddress f s ≤ 2 ^ 31 - 1 → -2 ^ 31 ≤ effectiveAddress f s → ∃ c,
      SignIs (effectiveAddress f s) c ∧
      (s.mem.inRange (effectiveAddress f s) = true →
        exec (.load f) s = .next { s with cond := c, pc := s.pc + 1 }) ∧
      (s.mem.inRange (effectiveAddress f s) = false → exec (.load f) s =
        .next { s with cond := c, pc := s.pc + 1, halted := true, haltReason := .memFault }) ∧
      (s.mem.inRange (effectiveAddress f s) = true → exec (.store f) s =
        .next { s with
          cond := c, pc := s.pc + 1, mem := s.mem.setCell (effectiveAddress f s).toNat 0 }))

/-- R190: an executed ADD, SUB, MUL, DIV or LOAD with target 15 that does not fault transfers
control: the next fetch is from the result, or from the loaded value. -/
def Obligations.WritingRegister15TransfersControl : Prop :=
  ∀ (f : Fields) (s : State), f.target = 15 → predicateAdmits s.cond f.pred = true →
    (∀ i : Instr, i = .add f ∨ i = .sub f ∨ i = .mul f ∨ i = .div f →
      (alu i.opcode (operand1 f s) (operand2 f s)).2 ≠ .v →
      ∃ u, exec i s = .next u ∧ u.halted = s.halted ∧
        u.fetch = s.mem.read (alu i.opcode (operand1 f s) (operand2 f s)).1) ∧
    (0 ≤ effectiveAddress f s → effectiveAddress f s ≤ 2 ^ 31 - 1 →
      effectiveAddress f s < s.mem.size →
      ∃ u, exec (.load f) s = .next u ∧ u.halted = s.halted ∧
        u.fetch = s.mem.read (sint (s.mem.cellAt (effectiveAddress f s).toNat)))

/-- R192: `ADD r15,r15,r0[d]` transfers to its own address plus `d`, and the core stays Running,
also where it jumps to itself. -/
def Obligations.PcRelativeJumpCountsFromItself : Prop :=
  ∀ (pred : PredMask) (d : Int) (s : State), predicateAdmits s.cond pred = true →
    -2 ^ 31 ≤ sint s.pc + d → sint s.pc + d ≤ 2 ^ 31 - 1 →
    ∃ u, exec (.add ⟨pred, 15, 15, 0, d⟩) s = .next u ∧
      sint u.pc = sint s.pc + d ∧ u.halted = s.halted

/-- R25, R111: a step that does not halt leaves the program counter at the next address, or, after
an executed instruction whose target is register 15, at the value written. -/
def Obligations.PcMovesByOneOrByAWriteToIt : Prop :=
  ∀ s t : State, step s = .next t → t.halted = false →
    t.pc = s.pc + 1 ∨
    ∃ (w : Word) (i : Instr), s.fetch = some w ∧ decode w = .ok i ∧ i.fields.target = 15 ∧
      predicateAdmits s.cond i.fields.pred = true ∧
      ((isAlu i.opcode = true ∧
          sint t.pc = (alu i.opcode (operand1 i.fields s) (operand2 i.fields s)).1) ∨
        (isLoad i.opcode = true ∧
          s.mem.read (effectiveAddress i.fields s) = some t.pc))

/-- R26: the increment of the program counter never wraps, the memory having a size the spec admits. -/
def Obligations.PcIncrementNeverWraps : Prop :=
  ∀ (s : State) (w : Word), s.mem.wf = true → s.fetch = some w →
    sint (s.pc + 1) = sint s.pc + 1

/-- R29: the condition changes in a step only by an illegal word, to V, or by an executed
instruction, to the flag that the ALU returns. -/
def Obligations.ConditionIsWrittenByTheAluOrAnIllegalWord : Prop :=
  ∀ s t : State, step s = .next t → t.cond ≠ s.cond →
    (∃ w e, s.fetch = some w ∧ decode w = .error e ∧ t.cond = .v) ∨
    ∃ (w : Word) (i : Instr), s.fetch = some w ∧ decode w = .ok i ∧ (∀ f, i ≠ .halt f) ∧
      predicateAdmits s.cond i.fields.pred = true ∧
      t.cond = (alu i.opcode (operand1 i.fields s) (operand2 i.fields s)).2

/-- R210: a step that makes the condition V ends the run in an arithmetic fault or an illegal opcode. -/
def Obligations.ConditionBecomesVOnlyByAFault : Prop :=
  ∀ s t : State, s.cond ≠ .v → step s = .next t → t.cond = .v →
    t.halted = true ∧ (t.haltReason = .arithFault ∨ t.haltReason = .illegalOpcode)

/-- R28, R31: the codes of the condition register and of the halt reason. -/
def Obligations.StatusCodes : Prop :=
  (condCode .m = 1 ∧ condCode .z = 2 ∧ condCode .p = 4 ∧ condCode .v = 8) ∧
  haltReasonCode .reset = 0 ∧ haltReasonCode .haltInstr = 1 ∧ haltReasonCode .arithFault = 2 ∧
  haltReasonCode .illegalOpcode = 3 ∧ haltReasonCode .memFault = 4 ∧ haltReasonCode .running = 5

/-! ### Halting, reset, start, the invariant -/

/-- R200, R208: the whole state that each way of halting leaves: a fetch fault, HALT, an illegal
opcode, an arithmetic fault, and a LOAD or STORE outside memory. -/
def Obligations.HaltingStepLeavesExactState : Prop :=
  ∀ s t : State, step s = .next t → t.halted = true →
    (s.fetch = none ∧ t = { s with halted := true, haltReason := .memFault }) ∨
    ∃ (w : Word) (tr : List Observation), s.fetch = some w ∧
      tr = s.trace ++ [{ addr := s.pc, word := w, decoded := decodeWord w }] ∧
      ((∃ f, decode w = .ok (.halt f) ∧
          t = { s with halted := true, haltReason := .haltInstr, trace := tr }) ∨
        (∃ e, decode w = .error e ∧ t = { s with
            cond := .v, halted := true, haltReason := .illegalOpcode, trace := tr }) ∨
        (∃ i, decode w = .ok i ∧ (∀ f, i ≠ .halt f) ∧
          predicateAdmits s.cond i.fields.pred = true ∧
          (alu i.opcode (operand1 i.fields s) (operand2 i.fields s)).2 = .v ∧
          t = { s with cond := .v, halted := true, haltReason := .arithFault, trace := tr }) ∨
        (∃ i f c, decode w = .ok i ∧ (i = .load f ∨ i = .store f) ∧
          predicateAdmits s.cond f.pred = true ∧ SignIs (effectiveAddress f s) c ∧
          (effectiveAddress f s < 0 ∨ s.mem.size ≤ effectiveAddress f s) ∧
          t = { s with
            cond := c, pc := s.pc + 1, halted := true, haltReason := .memFault, trace := tr }))

/-- R233: the start event sets the program counter and makes a Halted core Running, keeps everything
else, does not check the address, and is ignored while Running. -/
def Obligations.StartEventMakesTheCoreRun : Prop :=
  ∀ (s : State) (a : Word),
    (s.halted = true → react (.start a) s =
      .next { s with pc := a, halted := false, haltReason := .running }) ∧
    (s.halted = false → react (.start a) s = .next s) ∧
    (s.halted = true → ¬ (0 ≤ sint a ∧ sint a < s.mem.size) →
      step (s.start a) = .next { s with pc := a, halted := true, haltReason := .memFault })

/-- R230, R231: what hardware reset leaves, from any state and in `State.reset`. The values are the
spec's own (decision D14); the size and the cleared contents of the memory of `State.reset` are the
model's choice (log entries 1 and 2), and nothing here speaks of them. -/
def Obligations.HardwareResetLeavesResetValues : Prop :=
  (∀ s : State, ∃ t, react .hardwareReset s = .next t ∧ (∀ i : RegIndex, t.x i = 0) ∧
    t.cond = .z ∧ t.halted = true ∧ t.haltReason = .reset ∧ t.mem = s.mem) ∧
  (∀ i : RegIndex, State.reset.x i = 0) ∧ State.reset.cond = .z ∧
  State.reset.halted = true ∧ State.reset.haltReason = .reset

/-- R6, R55, R62: the host writes memory while the core is Halted; no other writer exists during a
run. The two refusals are the model's (log entry 6). -/
def Obligations.HostWritesMemoryOnlyWhileHalted : Prop :=
  ∀ (s : State) (a : Int) (w : Word),
    (s.halted = true → 0 ≤ a ∧ a < s.mem.size →
      react (.hostWrite a w) s = .next { s with mem := s.mem.setCell a.toNat w }) ∧
    (s.halted = true → a < 0 ∨ s.mem.size ≤ a →
      react (.hostWrite a w) s = .refused .hostAddressOutOfRange) ∧
    (s.halted = false → react (.hostWrite a w) s = .refused .secondWriter)

/-- R28, R30, R31, R52, R103, R200: every step keeps the invariant. -/
def Obligations.StepKeepsTheInvariant : Prop :=
  ∀ s t : State, s.Inv → step s = .next t → t.Inv

/-- The state after reset meets the invariant (R36). That its memory is cleared and of the largest
admitted size is the model's choice (log entries 1 and 2). -/
def Obligations.ResetMeetsTheInvariant : Prop := State.reset.Inv

/-- R100, R233, R230: so does every state that steps, starts, resets and the host's writes lead to,
from the state after reset over any memory in canonical form; in each the core is Running exactly when the reason code says
so, and an arithmetic or illegal-opcode halt shows the condition V. -/
def Obligations.ReachableStatesMeetTheInvariant : Prop := ∀ s : State, Reachable s → s.Inv
end

