-- ==== Sys2Proof/Laws/Alu.lean ====
section
/-! SUPPORT. The ALU and the predicate test, each said once. -/

namespace Sys2Proof.Machine

theorem fitsWord_iff (t : Int) : fitsWord t = true ↔ -2 ^ 31 ≤ t ∧ t ≤ 2 ^ 31 - 1 := by
  simp [fitsWord]

/-- All that the sign classification can answer. -/
theorem flagOf_cases (t : Int) :
    (t < 0 ∧ flagOf t = .m) ∨ (t = 0 ∧ flagOf t = .z) ∨ (0 < t ∧ flagOf t = .p) := by
  unfold flagOf; split <;> [simp_all; split <;> [simp_all; (right; right; simp; omega)]]

theorem flagOf_ne_v (t : Int) : flagOf t ≠ .v := by
  rcases flagOf_cases t with ⟨_, h⟩ | ⟨_, h⟩ | ⟨_, h⟩ <;> simp [h]

/-- All that the range check can answer. -/
theorem checkedResult_cases (t : Int) :
    (fitsWord t = true ∧ checkedResult t = (t, flagOf t)) ∨
      (fitsWord t = false ∧ checkedResult t = (0, .v)) := by
  unfold checkedResult; split <;> simp_all

theorem alu_add (a b : Int) : alu opAdd a b = checkedResult (a + b) := rfl
theorem alu_load (a b : Int) : alu opLoad a b = checkedResult (a + b) := rfl
theorem alu_store (a b : Int) : alu opStore a b = checkedResult (a + b) := rfl
theorem alu_sub (a b : Int) : alu opSub a b = checkedResult (a - b) := rfl
theorem alu_mul (a b : Int) : alu opMul a b = checkedResult (a * b) := rfl
theorem alu_div (a b : Int) :
    alu opDiv a b = if b = 0 then (0, .v) else checkedResult (floordiv a b) := rfl

/-- All that the ALU can answer: a result in range with the flag of its sign, or (0, V). -/
theorem alu_cases (op : BitVec 6) (a b : Int) :
    (∃ t, fitsWord t = true ∧ alu op a b = (t, flagOf t)) ∨ alu op a b = (0, .v) := by
  have h : ∀ t, (∃ u, fitsWord u = true ∧ checkedResult t = (u, flagOf u)) ∨
      checkedResult t = (0, .v) := fun t => by
    rcases checkedResult_cases t with ⟨h1, h2⟩ | ⟨_, h2⟩
    · exact .inl ⟨t, h1, h2⟩
    · exact .inr h2
  unfold alu
  split
  · exact h _
  split
  · exact h _
  split
  · exact h _
  split
  · split
    · exact .inr rfl
    · exact h _
  split
  · exact .inl ⟨0, by decide, rfl⟩
  · exact .inr rfl

/-- The range-checked integer survives its narrowing to 32 bits. -/
theorem sint_bits32 {t : Int} (h : fitsWord t = true) : sint (bits32 t) = t := by
  rw [fitsWord_iff] at h
  simp only [sint, bits32, BitVec.toInt_ofInt]
  exact Int.bmod_eq_of_le (by omega) (by omega)

/-- Every pattern is the narrowing of its signed value. -/
theorem bits32_sint (w : Word) : bits32 (sint w) = w := BitVec.ofInt_toInt

/-- The signed value of a pattern is in range. -/
theorem fitsWord_sint (w : Word) : fitsWord (sint w) = true := by
  rw [fitsWord_iff]
  have h1 := BitVec.le_toInt w
  have h2 := BitVec.toInt_lt (x := w)
  unfold sint
  constructor <;> omega

/-- All that a predicated instruction can do: it is skipped, it halts with an arithmetic fault, or
it is executed and its write-back acts on the state with the condition set and the program counter
advanced. -/
theorem predicated_cases (op : BitVec 6) (f : Fields) (wb : Int → State → State) (s : State) :
    (predicateAdmits s.cond f.pred = false ∧ predicated op f wb s = s.advancePc) ∨
    (predicateAdmits s.cond f.pred = true ∧ alu op (operand1 f s) (operand2 f s) = (0, .v) ∧
      predicated op f wb s = (s.setCond .v).raise .arithFault) ∨
    (∃ t, predicateAdmits s.cond f.pred = true ∧ fitsWord t = true ∧
      alu op (operand1 f s) (operand2 f s) = (t, flagOf t) ∧
      predicated op f wb s = wb t ((s.setCond (flagOf t)).advancePc)) := by
  unfold predicated
  by_cases hp : predicateAdmits s.cond f.pred = true
  · rcases alu_cases op (operand1 f s) (operand2 f s) with ⟨t, ht, ha⟩ | ha
    · exact .inr (.inr ⟨t, hp, ht, ha, by simp [hp, ha, flagOf_ne_v]⟩)
    · exact .inr (.inl ⟨hp, ha, by simp [hp, ha]⟩)
  · exact .inl ⟨by simpa using hp, by simp [hp]⟩

end Sys2Proof.Machine
end

