-- ==== Sys2Proof/Laws/Decode.lean ====
section
/-! SUPPORT. The pieces of the decoder and the classification of the opcode, each said once. -/

namespace Sys2Proof

/-- The displacement field always reads as a 10-bit signed integer. -/
theorem offsetFits_sext10 (v : BitVec 10) : offsetFits (sext10 v) = true := by
  have := v.isLt
  unfold offsetFits sext10
  simp only [Bool.and_eq_true, decide_eq_true_eq]
  split <;> omega

/-- All that the classification can answer. -/
theorem classifyOpcode_cases (d : DecodedInstruction) :
    (∃ i : Instr, classifyOpcode d = .ok i ∧ i.opcode = d.opcode ∧ i.fields = d.fields) ∨
      (isIllegal d.opcode = true ∧ classifyOpcode d = .error (.illegalOpcode d.opcode)) := by
  obtain ⟨op, f⟩ := d
  unfold classifyOpcode
  dsimp only
  split
  · exact .inl ⟨.halt f, rfl, by simp [Instr.opcode, *], rfl⟩
  split
  · exact .inl ⟨.load f, rfl, by simp [Instr.opcode, *], rfl⟩
  split
  · exact .inl ⟨.store f, rfl, by simp [Instr.opcode, *], rfl⟩
  split
  · exact .inl ⟨.add f, rfl, by simp [Instr.opcode, *], rfl⟩
  split
  · exact .inl ⟨.sub f, rfl, by simp [Instr.opcode, *], rfl⟩
  split
  · exact .inl ⟨.mul f, rfl, by simp [Instr.opcode, *], rfl⟩
  split
  · exact .inl ⟨.div f, rfl, by simp [Instr.opcode, *], rfl⟩
  · exact .inr ⟨by simp_all [isIllegal, isHalt, isLoad, isStore, isAlu], rfl⟩

/-- A word is an instruction exactly when the two have one opcode and the same fields. -/
theorem decode_eq_ok_iff (w : Word) (i : Instr) :
    decode w = .ok i ↔ i.opcode = (decodeWord w).opcode ∧ i.fields = (decodeWord w).fields := by
  unfold decode
  generalize decodeWord w = d
  obtain ⟨op, f⟩ := d
  constructor
  · intro h
    rcases classifyOpcode_cases ⟨op, f⟩ with ⟨j, h1, h2⟩ | ⟨_, h1⟩ <;> rw [h1] at h <;> cases h
    exact h2
  · rintro ⟨h1, h2⟩
    dsimp only at h1 h2
    subst h1 h2
    cases i <;> rfl

/-- No instruction has an illegal opcode. -/
theorem isIllegal_opcode (i : Instr) : isIllegal i.opcode = false := by cases i <;> rfl

/-- A word is no instruction exactly when its opcode is illegal. -/
theorem decode_eq_error_iff (w : Word) :
    (∃ e, decode w = .error e) ↔ isIllegal (decodeWord w).opcode = true := by
  unfold decode
  rcases classifyOpcode_cases (decodeWord w) with ⟨i, h1, h2, _⟩ | ⟨h1, h2⟩
  · rw [h1, ← h2, isIllegal_opcode]; simp
  · rw [h1, h2]; simp

end Sys2Proof
end

