-- ==== Sys2Proof/Laws/State.lean ====
section
/-! SUPPORT. What each update of the state does to each field of it. -/

namespace Sys2Proof.Machine

section advancePc
variable (s : State)
@[simp] theorem advancePc_regs : s.advancePc.regs = s.regs := rfl
@[simp] theorem advancePc_pc : s.advancePc.pc = s.pc + 1 := rfl
@[simp] theorem advancePc_cond : s.advancePc.cond = s.cond := rfl
@[simp] theorem advancePc_halted : s.advancePc.halted = s.halted := rfl
@[simp] theorem advancePc_haltReason : s.advancePc.haltReason = s.haltReason := rfl
@[simp] theorem advancePc_mem : s.advancePc.mem = s.mem := rfl
@[simp] theorem advancePc_trace : s.advancePc.trace = s.trace := rfl
end advancePc

section setCond
variable (s : State) (c : Cond)
@[simp] theorem setCond_regs : (s.setCond c).regs = s.regs := rfl
@[simp] theorem setCond_pc : (s.setCond c).pc = s.pc := rfl
@[simp] theorem setCond_cond : (s.setCond c).cond = c := rfl
@[simp] theorem setCond_halted : (s.setCond c).halted = s.halted := rfl
@[simp] theorem setCond_haltReason : (s.setCond c).haltReason = s.haltReason := rfl
@[simp] theorem setCond_mem : (s.setCond c).mem = s.mem := rfl
@[simp] theorem setCond_trace : (s.setCond c).trace = s.trace := rfl
end setCond

section raise
variable (s : State) (r : HaltReason)
@[simp] theorem raise_regs : (s.raise r).regs = s.regs := rfl
@[simp] theorem raise_pc : (s.raise r).pc = s.pc := rfl
@[simp] theorem raise_cond : (s.raise r).cond = s.cond := rfl
@[simp] theorem raise_halted : (s.raise r).halted = true := rfl
@[simp] theorem raise_haltReason : (s.raise r).haltReason = r := rfl
@[simp] theorem raise_mem : (s.raise r).mem = s.mem := rfl
@[simp] theorem raise_trace : (s.raise r).trace = s.trace := rfl
end raise

section observe
variable (s : State) (w : Word)
@[simp] theorem observe_regs : (s.observe w).regs = s.regs := rfl
@[simp] theorem observe_pc : (s.observe w).pc = s.pc := rfl
@[simp] theorem observe_cond : (s.observe w).cond = s.cond := rfl
@[simp] theorem observe_halted : (s.observe w).halted = s.halted := rfl
@[simp] theorem observe_haltReason : (s.observe w).haltReason = s.haltReason := rfl
@[simp] theorem observe_mem : (s.observe w).mem = s.mem := rfl
@[simp] theorem observe_trace : (s.observe w).trace = s.trace ++ [observation s w] := rfl
end observe

section afterReset
variable (m : Memory) (tr : List Observation)
@[simp] theorem afterReset_regs : (State.afterReset m tr).regs = Vector.replicate 14 0 := rfl
@[simp] theorem afterReset_pc : (State.afterReset m tr).pc = 0 := rfl
@[simp] theorem afterReset_cond : (State.afterReset m tr).cond = .z := rfl
@[simp] theorem afterReset_halted : (State.afterReset m tr).halted = true := rfl
@[simp] theorem afterReset_haltReason : (State.afterReset m tr).haltReason = .reset := rfl
@[simp] theorem afterReset_mem : (State.afterReset m tr).mem = m := rfl
@[simp] theorem afterReset_trace : (State.afterReset m tr).trace = tr := rfl
end afterReset

section placeWord
variable (s : State) (w : Word)
@[simp] theorem placeWord_regs : (s.placeWord w).regs = s.regs := rfl
@[simp] theorem placeWord_pc : (s.placeWord w).pc = s.entryAddress := rfl
@[simp] theorem placeWord_cond : (s.placeWord w).cond = s.cond := rfl
@[simp] theorem placeWord_halted : (s.placeWord w).halted = false := rfl
@[simp] theorem placeWord_haltReason : (s.placeWord w).haltReason = .running := rfl
@[simp] theorem placeWord_mem :
    (s.placeWord w).mem = s.mem.setCell s.entryAddress.toNat w := rfl
@[simp] theorem placeWord_trace : (s.placeWord w).trace = s.trace := rfl
end placeWord

/-! A register write changes registers only; a field that is no register reads as before. -/

section writeReg
variable (s : State) (i : RegIndex) (v : Word)
@[simp] theorem writeReg_cond : (s.writeReg i v).cond = s.cond := by
  unfold State.writeReg; split <;> [rfl; split <;> rfl]
@[simp] theorem writeReg_halted : (s.writeReg i v).halted = s.halted := by
  unfold State.writeReg; split <;> [rfl; split <;> rfl]
@[simp] theorem writeReg_haltReason : (s.writeReg i v).haltReason = s.haltReason := by
  unfold State.writeReg; split <;> [rfl; split <;> rfl]
@[simp] theorem writeReg_mem : (s.writeReg i v).mem = s.mem := by
  unfold State.writeReg; split <;> [rfl; split <;> rfl]
@[simp] theorem writeReg_trace : (s.writeReg i v).trace = s.trace := by
  unfold State.writeReg; split <;> [rfl; split <;> rfl]
end writeReg

/-- What a read of a register depends on: the general registers and the program counter. -/
theorem readReg_congr {s t : State} (hr : t.regs = s.regs) (hp : t.pc = s.pc) (i : RegIndex) :
    t.readReg i = s.readReg i := by
  unfold State.readReg; simp only [hr, hp]

theorem regIndex_lt_of_ne_pc {i : RegIndex} (hi : i ≠ 15) : i.val < 15 := by
  have h : i.val ≠ 15 := Fin.val_ne_of_ne hi
  have := i.isLt
  omega

/-- A register other than 15 does not depend on the program counter. -/
theorem readReg_congr_ne {s t : State} (hr : t.regs = s.regs) {i : RegIndex} (hi : i ≠ 15) :
    t.readReg i = s.readReg i := by
  have := regIndex_lt_of_ne_pc hi
  unfold State.readReg
  simp only [hr]
  split <;> [rfl; split <;> [rfl; omega]]

@[simp] theorem readReg_zero (s : State) : s.readReg 0 = 0 := rfl
@[simp] theorem readReg_pc (s : State) : s.readReg 15 = s.pc := rfl
@[simp] theorem x_zero (s : State) : s.x 0 = 0 := rfl

@[simp] theorem readReg_setCond (s : State) (c : Cond) (i : RegIndex) :
    (s.setCond c).readReg i = s.readReg i := rfl
@[simp] theorem readReg_raise (s : State) (r : HaltReason) (i : RegIndex) :
    (s.raise r).readReg i = s.readReg i := rfl
@[simp] theorem readReg_observe (s : State) (w : Word) (i : RegIndex) :
    (s.observe w).readReg i = s.readReg i := rfl
@[simp] theorem readReg_setMem (s : State) (m : Memory) (i : RegIndex) :
    State.readReg { s with mem := m } i = s.readReg i := rfl
theorem readReg_advancePc (s : State) {i : RegIndex} (hi : i ≠ 15) :
    s.advancePc.readReg i = s.readReg i := readReg_congr_ne (s := s) (t := s.advancePc) rfl hi

/-- A write of register 0 is discarded. -/
@[simp] theorem writeReg_zero (s : State) (v : Word) : s.writeReg 0 v = s := rfl
/-- A write of register 15 is a write of the program counter. -/
@[simp] theorem writeReg_pc (s : State) (v : Word) : s.writeReg 15 v = { s with pc := v } := rfl

/-- A register that is written reads as what was written, unless it is register 0. -/
theorem readReg_writeReg_same (s : State) {i : RegIndex} (v : Word) (hi : i ≠ 0) :
    (s.writeReg i v).readReg i = v := by
  have h0 : i.val ≠ 0 := Fin.val_ne_of_ne hi
  unfold State.writeReg
  simp only [h0, if_false]
  split <;> simp [State.readReg, *]

/-- A write of one register leaves every other as it was. -/
theorem readReg_writeReg_other (s : State) {i j : RegIndex} (v : Word) (hij : j ≠ i) :
    (s.writeReg i v).readReg j = s.readReg j := by
  have hne : j.val ≠ i.val := Fin.val_ne_of_ne hij
  have := i.isLt
  unfold State.writeReg
  split
  · rfl
  split
  · unfold State.readReg
    split
    · rfl
    split
    · exact Vector.getElem_set_ne (by omega) (by omega) (by omega)
    · rfl
  · exact readReg_congr_ne (s := s) (t := { s with pc := v }) rfl fun h => by subst h; simp at *; omega

/-- A write of a register other than 15 leaves the program counter alone. -/
theorem writeReg_pc_other (s : State) {i : RegIndex} (v : Word) (hi : i ≠ 15) :
    (s.writeReg i v).pc = s.pc :=
  readReg_writeReg_other s (j := 15) v hi.symm

/-! The operands do not depend on the condition, the latch, the memory or the records. -/

@[simp] theorem x_observe (s : State) (w : Word) (i : RegIndex) : (s.observe w).x i = s.x i := rfl
@[simp] theorem operand1_observe (f : Fields) (s : State) (w : Word) :
    operand1 f (s.observe w) = operand1 f s := rfl
@[simp] theorem operand2_observe (f : Fields) (s : State) (w : Word) :
    operand2 f (s.observe w) = operand2 f s := rfl
@[simp] theorem effectiveAddress_observe (f : Fields) (s : State) (w : Word) :
    effectiveAddress f (s.observe w) = effectiveAddress f s := rfl

end Sys2Proof.Machine
end

