-- ==== Sys2Proof/Laws/Step.lean ====
section
/-! SUPPORT. All that one step and the two accesses of LOAD and STORE can do, each said once. -/

namespace Sys2Proof.Machine

/-- All that the access of LOAD can do. -/
theorem loadAccess_cases (f : Fields) (ea : Int) (s : State) :
    (s.mem.inRange ea = true ∧ loadAccess f ea s = s.writeReg f.target (s.mem.cellAt ea.toNat)) ∨
      (s.mem.inRange ea = false ∧ loadAccess f ea s = s.raise .memFault) := by
  unfold loadAccess Memory.read
  cases s.mem.inRange ea <;> simp

/-- All that the access of STORE can do. -/
theorem storeAccess_cases (f : Fields) (ea : Int) (s : State) :
    (s.mem.inRange ea = true ∧
      storeAccess f ea s = { s with mem := s.mem.setCell ea.toNat (s.readReg f.target) }) ∨
      (s.mem.inRange ea = false ∧ storeAccess f ea s = s.raise .memFault) := by
  unfold storeAccess Memory.write
  cases s.mem.inRange ea <;> simp

/-- All that a fetch can answer. -/
theorem fetch_cases (s : State) :
    (s.mem.inRange (sint s.pc) = true ∧ s.fetch = some (s.mem.cellAt (sint s.pc).toNat)) ∨
      (s.mem.inRange (sint s.pc) = false ∧ s.fetch = none) := by
  unfold State.fetch Memory.read
  cases s.mem.inRange (sint s.pc) <;> simp

/-- All that one step can do: nothing for a halted core, a fetch fault, an illegal word, or the
meaning of the decoded instruction after the record of it. -/
theorem cycle_cases (run : Instr → State → Host.Outcome State Fault Refusal) (s : State) :
    (s.halted = true ∧ cycle run s = .fault .coreHalted) ∨
    (s.halted = false ∧ s.fetch = none ∧ cycle run s = .next (s.raise .memFault)) ∨
    (∃ w e, s.halted = false ∧ s.fetch = some w ∧ decode w = .error e ∧
      cycle run s = .next (takeIllegalOpcode (s.observe w))) ∨
    (∃ w i, s.halted = false ∧ s.fetch = some w ∧ decode w = .ok i ∧
      cycle run s = run i (s.observe w)) := by
  unfold cycle
  cases hh : s.halted
  · cases hf : s.fetch with
    | none => exact .inr (.inl (by simp))
    | some w =>
      cases hd : decode w with
      | error e => exact .inr (.inr (.inl ⟨w, e, by simp [hd]⟩))
      | ok i => exact .inr (.inr (.inr ⟨w, i, by simp [hd]⟩))
  · exact .inl (by simp)

/-- Every meaning answers with a next state. -/
theorem exec_next (i : Instr) (s : State) : ∃ t, exec i s = .next t := by
  cases i <;> exact ⟨_, rfl⟩

end Sys2Proof.Machine
end

