-- ==== Sys2Proof/Laws/Exec.lean ====
section
/-! SUPPORT. All that the meaning of an instruction can do, said once. -/

namespace Sys2Proof.Machine

/-- The state on which the write-back of an executed instruction acts, its ALU result being `t`. -/
abbrev executedState (s : State) (t : Int) : State := (s.setCond (flagOf t)).advancePc

/-- The seven ways in which the meaning of an instruction can end: HALT; skipped; arithmetic fault;
an arithmetic result; a LOAD; a STORE; a LOAD or STORE outside memory. -/
theorem exec_cases (i : Instr) (s : State) :
    (∃ f, i = .halt f ∧ exec i s = .next (s.raise .haltInstr)) ∨
    ((∀ f, i ≠ .halt f) ∧ predicateAdmits s.cond i.fields.pred = false ∧
      exec i s = .next s.advancePc) ∨
    ((∀ f, i ≠ .halt f) ∧ predicateAdmits s.cond i.fields.pred = true ∧
      alu i.opcode (operand1 i.fields s) (operand2 i.fields s) = (0, .v) ∧
      exec i s = .next ((s.setCond .v).raise .arithFault)) ∨
    (∃ f t, (i = .add f ∨ i = .sub f ∨ i = .mul f ∨ i = .div f) ∧
      predicateAdmits s.cond f.pred = true ∧ fitsWord t = true ∧
      alu i.opcode (operand1 f s) (operand2 f s) = (t, flagOf t) ∧
      exec i s = .next ((executedState s t).writeReg f.target (bits32 t))) ∨
    (∃ f, i = .load f ∧ predicateAdmits s.cond f.pred = true ∧
      fitsWord (effectiveAddress f s) = true ∧ s.mem.inRange (effectiveAddress f s) = true ∧
      exec i s = .next ((executedState s (effectiveAddress f s)).writeReg f.target
        (s.mem.cellAt (effectiveAddress f s).toNat))) ∨
    (∃ f, i = .store f ∧ predicateAdmits s.cond f.pred = true ∧
      fitsWord (effectiveAddress f s) = true ∧ s.mem.inRange (effectiveAddress f s) = true ∧
      exec i s = .next { executedState s (effectiveAddress f s) with
        mem := s.mem.setCell (effectiveAddress f s).toNat (s.advancePc.readReg f.target) }) ∨
    (∃ f, (i = .load f ∨ i = .store f) ∧ predicateAdmits s.cond f.pred = true ∧
      fitsWord (effectiveAddress f s) = true ∧ s.mem.inRange (effectiveAddress f s) = false ∧
      exec i s = .next ((executedState s (effectiveAddress f s)).raise .memFault)) := by
  have address : ∀ {f : Fields} {t : Int},
      checkedResult (operand1 f s + operand2 f s) = (t, flagOf t) →
        fitsWord (effectiveAddress f s) = true ∧ t = effectiveAddress f s := by
    intro f t h
    rcases checkedResult_cases (operand1 f s + operand2 f s) with ⟨h1, h2⟩ | ⟨_, h2⟩
    · rw [h2] at h
      exact ⟨h1, (Prod.mk.inj h).1.symm⟩
    · rw [h2] at h
      exact absurd (Prod.mk.inj h).2.symm (flagOf_ne_v t)
  cases i with
  | halt f => exact .inl ⟨f, rfl, rfl⟩
  | load f =>
    refine .inr ?_
    rcases predicated_cases opLoad f (loadAccess f) s with
      ⟨hp, h⟩ | ⟨hp, ha, h⟩ | ⟨t, hp, _, ha, h⟩
    · exact .inl ⟨fun _ => Instr.noConfusion, hp, congrArg _ h⟩
    · exact .inr (.inl ⟨fun _ => Instr.noConfusion, hp, ha, congrArg _ h⟩)
    · obtain ⟨hf, rfl⟩ := address ha
      rcases loadAccess_cases f (effectiveAddress f s) (executedState s (effectiveAddress f s)) with
        ⟨hr, hl⟩ | ⟨hr, hl⟩
      · exact .inr (.inr (.inr (.inl ⟨f, rfl, hp, hf, hr, congrArg _ (h.trans hl)⟩)))
      · exact .inr (.inr (.inr (.inr (.inr ⟨f, .inl rfl, hp, hf, hr, congrArg _ (h.trans hl)⟩))))
  | store f =>
    refine .inr ?_
    rcases predicated_cases opStore f (storeAccess f) s with
      ⟨hp, h⟩ | ⟨hp, ha, h⟩ | ⟨t, hp, _, ha, h⟩
    · exact .inl ⟨fun _ => Instr.noConfusion, hp, congrArg _ h⟩
    · exact .inr (.inl ⟨fun _ => Instr.noConfusion, hp, ha, congrArg _ h⟩)
    · obtain ⟨hf, rfl⟩ := address ha
      rcases storeAccess_cases f (effectiveAddress f s) (executedState s (effectiveAddress f s)) with
        ⟨hr, hl⟩ | ⟨hr, hl⟩
      · exact .inr (.inr (.inr (.inr (.inl ⟨f, rfl, hp, hf, hr, congrArg _ (h.trans hl)⟩))))
      · exact .inr (.inr (.inr (.inr (.inr ⟨f, .inr rfl, hp, hf, hr, congrArg _ (h.trans hl)⟩))))
  | add f | sub f | mul f | div f =>
    refine .inr ?_
    rcases predicated_cases _ f (writeResult f) s with ⟨hp, h⟩ | ⟨hp, ha, h⟩ | ⟨t, hp, hf, ha, h⟩
    · exact .inl ⟨fun _ => Instr.noConfusion, hp, congrArg _ h⟩
    · exact .inr (.inl ⟨fun _ => Instr.noConfusion, hp, ha, congrArg _ h⟩)
    · exact .inr (.inr (.inl ⟨f, t, by simp, hp, hf, ha, congrArg _ h⟩))

end Sys2Proof.Machine
end

