-- ==== Sys2Proof/Laws/Memory.lean ====
section
/-! SUPPORT. The memory operations: what they read and write, and that they keep the canonical form. -/

namespace Sys2Proof.Machine

/-- Below its lower bound a canonical list lists nothing. -/
theorem lookupCell_below {size lo a : Nat} {l : List (Nat × Word)} (h : cellsWf size lo l = true)
    (ha : a < lo) : lookupCell l a = Config.unlistedCell := by
  induction l generalizing lo with
  | nil => rfl
  | cons c rest ih =>
    obtain ⟨k, w⟩ := c
    simp only [cellsWf, Bool.and_eq_true, decide_eq_true_eq] at h
    obtain ⟨⟨⟨h1, _⟩, _⟩, h4⟩ := h
    simp only [lookupCell, show k ≠ a by omega, if_false]
    exact ih h4 (by omega)

/-- A larger lower bound is the stronger form. -/
theorem cellsWf_mono {size lo lo' : Nat} {l : List (Nat × Word)} (h : cellsWf size lo l = true)
    (hl : lo' ≤ lo) : cellsWf size lo' l = true := by
  cases l with
  | nil => rfl
  | cons c rest =>
    simp only [cellsWf, Bool.and_eq_true, decide_eq_true_eq] at h ⊢
    exact ⟨⟨⟨by omega, h.1.1.2⟩, h.1.2⟩, h.2⟩

/-- Setting a cell keeps the canonical form. -/
theorem cellsWf_insertCell {size lo a : Nat} {l : List (Nat × Word)} (v : Word)
    (h : cellsWf size lo l = true) (hlo : lo ≤ a) (ha : a < size) :
    cellsWf size lo (insertCell l a v) = true := by
  induction l generalizing lo with
  | nil => unfold insertCell; split <;> simp [cellsWf, *]
  | cons c rest ih =>
    obtain ⟨k, w⟩ := c
    have h' := h
    simp only [cellsWf, Bool.and_eq_true, decide_eq_true_eq] at h'
    obtain ⟨⟨⟨h1, h2⟩, h3⟩, h4⟩ := h'
    unfold insertCell
    split
    · split
      · exact h
      · simp only [cellsWf, Bool.and_eq_true, decide_eq_true_eq]
        exact ⟨⟨⟨hlo, ha⟩, ‹_›⟩, ⟨⟨by omega, h2⟩, h3⟩, h4⟩
    split
    · subst a
      split
      · exact cellsWf_mono h4 (by omega)
      · simp only [cellsWf, Bool.and_eq_true, decide_eq_true_eq]
        exact ⟨⟨⟨h1, h2⟩, ‹_›⟩, h4⟩
    · simp only [cellsWf, Bool.and_eq_true, decide_eq_true_eq]
      exact ⟨⟨⟨h1, h2⟩, h3⟩, ih h4 (by omega)⟩

/-- Every other cell reads as before, whether the list is canonical or not. -/
theorem lookupCell_insertCell_other {a b : Nat} (l : List (Nat × Word)) (v : Word) (hab : b ≠ a) :
    lookupCell (insertCell l a v) b = lookupCell l b := by
  induction l with
  | nil => unfold insertCell; split <;> simp [lookupCell, Ne.symm hab]
  | cons c rest ih =>
    obtain ⟨k, w⟩ := c
    unfold insertCell
    split
    · split <;> simp [lookupCell, Ne.symm hab]
    split
    · split <;> simp [lookupCell, show k ≠ b by omega, Ne.symm hab]
    · simp only [lookupCell, ih]

/-- The cell that was set reads as what was set. -/
theorem lookupCell_insertCell_same {size lo a : Nat} {l : List (Nat × Word)} (v : Word)
    (h : cellsWf size lo l = true) : lookupCell (insertCell l a v) a = v := by
  induction l generalizing lo with
  | nil => unfold insertCell; split <;> simp [lookupCell, *]
  | cons c rest ih =>
    obtain ⟨k, w⟩ := c
    simp only [cellsWf, Bool.and_eq_true, decide_eq_true_eq] at h
    obtain ⟨_, h4⟩ := h
    unfold insertCell
    split
    · split
      · simp only [lookupCell, show k ≠ a by omega, if_false]
        rw [lookupCell_below h4 (by omega), ‹v = _›]
      · simp [lookupCell]
    split
    · subst a
      split
      · rw [lookupCell_below h4 (by omega), ‹v = _›]
      · simp [lookupCell]
    · simp only [lookupCell, show k ≠ a by omega, if_false]
      exact ih h4

/-- Two canonical lists that read alike everywhere are the same list. -/
theorem cells_ext {size lo : Nat} {l l' : List (Nat × Word)} (h : cellsWf size lo l = true)
    (h' : cellsWf size lo l' = true) (heq : ∀ a, lookupCell l a = lookupCell l' a) : l = l' := by
  induction l generalizing lo l' with
  | nil =>
    cases l' with
    | nil => rfl
    | cons c rest =>
      simp only [cellsWf, Bool.and_eq_true, decide_eq_true_eq] at h'
      exact absurd (by simpa [lookupCell] using (heq c.1).symm) h'.1.2
  | cons c rest ih =>
    obtain ⟨k, w⟩ := c
    simp only [cellsWf, Bool.and_eq_true, decide_eq_true_eq] at h
    obtain ⟨⟨⟨h1, h2⟩, h3⟩, h4⟩ := h
    have hk : lookupCell ((k, w) :: rest) k = w := by simp [lookupCell]
    cases l' with
    | nil => exact absurd (by rw [← hk, heq k]; rfl) h3
    | cons c' rest' =>
      obtain ⟨k', w'⟩ := c'
      simp only [cellsWf, Bool.and_eq_true, decide_eq_true_eq] at h'
      obtain ⟨⟨⟨h1', h2'⟩, h3'⟩, h4'⟩ := h'
      have hk' : lookupCell ((k', w') :: rest') k' = w' := by simp [lookupCell]
      have hkk : k = k' := by
        rcases Nat.lt_trichotomy k k' with hlt | rfl | hlt
        · refine absurd ?_ h3
          rw [← hk, heq k]
          simp only [lookupCell, show k' ≠ k by omega, if_false]
          exact lookupCell_below h4' (by omega)
        · rfl
        · refine absurd ?_ h3'
          rw [← hk', ← heq k']
          simp only [lookupCell, show k ≠ k' by omega, if_false]
          exact lookupCell_below h4 (by omega)
      subst hkk
      have hww : w = w' := by rw [← hk, heq k, hk']
      subst hww
      refine congrArg _ (ih h4 h4' fun a => ?_)
      by_cases ha : k = a
      · subst ha
        rw [lookupCell_below h4 (by omega), lookupCell_below h4' (by omega)]
      · simpa [lookupCell, ha] using heq a

theorem inRange_iff (m : Memory) (a : Int) : m.inRange a = true ↔ 0 ≤ a ∧ a < m.size := by
  simp [Memory.inRange]

/-- The parts of the canonical form. -/
theorem Memory.wf_iff (m : Memory) :
    m.wf = true ↔ (1 ≤ m.size ∧ m.size ≤ Config.maxMemSize) ∧ cellsWf m.size 0 m.cells = true := by
  simp [Memory.wf]

@[simp] theorem setCell_size (m : Memory) (a : Nat) (v : Word) : (m.setCell a v).size = m.size := rfl
@[simp] theorem inRange_setCell (m : Memory) (a : Nat) (v : Word) (b : Int) :
    (m.setCell a v).inRange b = m.inRange b := rfl

/-- `setCell` keeps the canonical form. -/
theorem setCell_wf {m : Memory} {a : Nat} (v : Word) (h : m.wf = true) (ha : a < m.size) :
    (m.setCell a v).wf = true := by
  rw [Memory.wf_iff] at h ⊢
  exact ⟨h.1, cellsWf_insertCell v h.2 (Nat.zero_le a) ha⟩

theorem cellAt_setCell_same {m : Memory} {a : Nat} (v : Word) (h : m.wf = true) :
    (m.setCell a v).cellAt a = v :=
  lookupCell_insertCell_same v ((Memory.wf_iff m).1 h).2

theorem cellAt_setCell_other (m : Memory) {a b : Nat} (v : Word) (hab : b ≠ a) :
    (m.setCell a v).cellAt b = m.cellAt b :=
  lookupCell_insertCell_other m.cells v hab

/-- All that a read can answer. -/
theorem read_cases (m : Memory) (a : Int) :
    (m.inRange a = true ∧ m.read a = some (m.cellAt a.toNat)) ∨
      (m.inRange a = false ∧ m.read a = none) := by
  unfold Memory.read; split <;> simp_all

/-- All that a write can answer. -/
theorem write_cases (m : Memory) (a : Int) (v : Word) :
    (m.inRange a = true ∧ m.write a v = some (m.setCell a.toNat v)) ∨
      (m.inRange a = false ∧ m.write a v = none) := by
  unfold Memory.write; split <;> simp_all

/-- A write keeps the canonical form. -/
theorem write_wf {m m' : Memory} {a : Int} {v : Word} (h : m.wf = true)
    (hw : m.write a v = some m') : m'.wf = true := by
  rcases write_cases m a v with ⟨hr, he⟩ | ⟨_, he⟩ <;> rw [he] at hw
  · cases hw
    rw [inRange_iff] at hr
    exact setCell_wf v h (by omega)
  · cases hw

/-- Memories in canonical form that have one size and read alike are equal. -/
theorem Memory.eq_of_reads {m m' : Memory} (h : m.wf = true) (h' : m'.wf = true)
    (hs : m.size = m'.size) (hr : ∀ a, m.cellAt a = m'.cellAt a) : m = m' := by
  obtain ⟨n, l⟩ := m
  obtain ⟨n', l'⟩ := m'
  cases hs
  exact congrArg _ (cells_ext ((Memory.wf_iff _).1 h).2 ((Memory.wf_iff _).1 h').2 hr)

/-- A cleared memory of an admitted size is in canonical form. -/
theorem cleared_wf {n : Nat} (h : 1 ≤ n ∧ n ≤ Config.maxMemSize) : Memory.wf ⟨n, []⟩ = true :=
  (Memory.wf_iff _).2 ⟨h, rfl⟩

/-- The memory after reset is in canonical form. -/
theorem reset_mem_wf : State.reset.mem.wf = true := cleared_wf (by decide)

end Sys2Proof.Machine
end

