-- ==== Sys2Proof/Laws/PerInstr.lean ====
section
/-! SUPPORT. Facts about each instruction as syntax, one lemma per constructor. -/

namespace Sys2Proof.Laws.OpcodeSelects

/-- The opcode of an instruction selects that instruction, whatever its fields are (R75). -/
def Statement (i : Instr) : Prop := classifyOpcode { opcode := i.opcode, fields := i.fields } = .ok i

theorem halt (f : Fields) : Statement (.halt f) := rfl
theorem load (f : Fields) : Statement (.load f) := rfl
theorem store (f : Fields) : Statement (.store f) := rfl
theorem add (f : Fields) : Statement (.add f) := rfl
theorem sub (f : Fields) : Statement (.sub f) := rfl
theorem mul (f : Fields) : Statement (.mul f) := rfl
theorem div (f : Fields) : Statement (.div f) := rfl

end Sys2Proof.Laws.OpcodeSelects
end

