-- ==== Sys2Proof/Tests/Slice0.lean ====
section
/-! SUPPORT. The model's own tests. The words and the expected results are those of
95_test_vectors.md, but where a comment says otherwise. -/

namespace Sys2Proof.Tests
open Sys2Proof.Machine

/-! Well-formedness: one ill-formed term on each side of the one check (R74). -/

theorem test_wellFormed_refuses_offset_below :
    (Instr.add ⟨7, 1, 2, 3, -513⟩).wellFormed = false := by decide
theorem test_wellFormed_refuses_offset_above :
    (Instr.load ⟨7, 1, 2, 3, 512⟩).wellFormed = false := by decide
theorem test_wellFormed_admits_both_ends :
    (Instr.div ⟨15, 15, 15, 15, -512⟩).wellFormed && (Instr.halt ⟨0, 0, 0, 0, 511⟩).wellFormed
      = true := by decide

/-! Decoding: a word of each instruction, written out by the fields of R71 (sections 1.1, 2.1, 2.7). -/

/-- What the decoder makes of a word, as an option. -/
def decoded (w : Word) : Option Instr := decodeTableWord 32 w.toNat

theorem test_decode_halt :
    decoded 0b000000_0111_0000_0000_0000_0000000000 = some (.halt ⟨7, 0, 0, 0, 0⟩) := by decide
theorem test_decode_load :
    decoded 0b000001_0111_0010_0001_0011_1111111111 = some (.load ⟨7, 2, 1, 3, -1⟩) := by decide
theorem test_decode_store :
    decoded 0b000010_0111_0001_0000_0000_0000001010 = some (.store ⟨7, 1, 0, 0, 10⟩) := by decide
theorem test_decode_add :
    decoded 0b000011_0100_1111_1111_0000_1111111110 = some (.add ⟨4, 15, 15, 0, -2⟩) := by decide
theorem test_decode_sub :
    decoded 0b000101_0010_0010_0011_0100_1111111111 = some (.sub ⟨2, 2, 3, 4, -1⟩) := by decide
theorem test_decode_mul :
    decoded 0b000110_0000_0111_1000_1001_0111111111 = some (.mul ⟨0, 7, 8, 9, 511⟩) := by decide
theorem test_decode_div :
    decoded 0b000111_1001_1110_1101_1100_1000000000 = some (.div ⟨9, 14, 13, 12, -512⟩) := by decide
theorem test_decode_refuses_gap :
    decode 0x10000000 = .error (.illegalOpcode 4) := by decide
theorem test_decode_refuses_bit31 :
    decode 0x8DC40002 = .error (.illegalOpcode 35) := by decide
theorem test_encode_div : encode (.div ⟨9, 14, 13, 12, -512⟩) = 0x1E7B7200 := by decide

/-! One step each. Address 4, 16 cells, condition Z unless a test says otherwise. -/

/-- A Running core at address 4 of a memory of 16 cells with the given cells listed. -/
def at4 (c : Cond) (cells : List (Nat × Word)) : State :=
  { State.afterReset ⟨16, cells⟩ [] with pc := 4, cond := c, halted := false, haltReason := .running }

/-- Whether an outcome is a next state that passes a check. -/
def gives (o : Host.Outcome State Fault Refusal) (p : State → Bool) : Bool :=
  match o with
  | .next t => p t
  | .fault _ => false
  | .refused _ => false

/-- Whether the latch is clear, the condition is `c` and the program counter is `pc`. -/
def runsTo (t : State) (c : Cond) (pc : Int) : Bool :=
  decide (t.halted = false ∧ t.haltReason = .running ∧ t.cond = c ∧ sint t.pc = pc)

/-- Whether the core has halted with reason `r`, condition `c` and program counter `pc`. -/
def haltsWith (t : State) (r : HaltReason) (c : Cond) (pc : Int) : Bool :=
  decide (t.halted = true ∧ t.haltReason = r ∧ t.cond = c ∧ sint t.pc = pc)

theorem test_add_result :
    gives (step (((at4 .z [(4, 0x0DCC4803)]).writeReg 1 5).writeReg 2 (-7)))
      (fun t => runsTo t .p 5 && decide (t.x 3 = 1)) = true := by decide
theorem test_add_overflow :
    gives (step ((at4 .z [(4, 0x0DC44001)]).writeReg 1 0x7FFFFFFF))
      (fun t => haltsWith t .arithFault .v 4 && decide (t.readReg 1 = 0x7FFFFFFF)) = true := by decide
theorem test_sub_wide_operand2 :
    gives (step (((at4 .z [(4, 0x15CC4801)]).writeReg 1 0x7FFFFFFF).writeReg 2 0x7FFFFFFF))
      (fun t => runsTo t .m 5 && decide (t.x 3 = -1)) = true := by decide
theorem test_sub_from_pc :
    gives (step (at4 .z [(4, 0x15FFC002)])) (fun t => runsTo t .p 2) = true := by decide
theorem test_mul_least :
    gives (step (((at4 .z [(4, 0x19C48C00)]).writeReg 2 (-65536)).writeReg 3 32768))
      (fun t => runsTo t .m 5 && decide (t.readReg 1 = 0x80000000)) = true := by decide
theorem test_mul_overflow :
    gives (step (((at4 .z [(4, 0x19C48C00)]).writeReg 2 46341).writeReg 3 46341))
      (fun t => haltsWith t .arithFault .v 4 && decide (t.x 1 = 0)) = true := by decide
theorem test_div_floors :
    gives (step (((at4 .z [(4, 0x1DCC4800)]).writeReg 1 7).writeReg 2 (-2)))
      (fun t => runsTo t .m 5 && decide (t.x 3 = -4)) = true := by decide
theorem test_div_cancelled_divisor :
    gives (step (((at4 .z [(4, 0x1DCC4BFB)]).writeReg 1 9).writeReg 2 5))
      (fun t => haltsWith t .arithFault .v 4 && decide (t.x 3 = 0)) = true := by decide
theorem test_load_sets_cond_from_address :
    gives (step (((at4 .z [(4, 0x05C84FFF), (9, -5)]).writeReg 1 6).writeReg 3 4))
      (fun t => runsTo t .p 5 && decide (t.x 2 = -5)) = true := by decide
theorem test_load_jump_out_of_range :
    gives (step (at4 .z [(4, 0x05FC0064)])) (fun t => haltsWith t .memFault .p 5) = true := by decide
theorem test_store_of_pc :
    gives (step (at4 .z [(4, 0x09FC0005)]))
      (fun t => runsTo t .p 5 && decide (t.mem.cells = [(4, 0x09FC0005), (5, 5)])) = true := by decide
theorem test_store_of_zero_unlists :
    gives (step (at4 .z [(4, 0x09C0000A), (10, 99)]))
      (fun t => runsTo t .p 5 && decide (t.mem.cells = [(4, 0x09C0000A)])) = true := by decide
theorem test_halt_is_not_predicated :
    gives (step (at4 .m [(4, 0)])) (fun t => haltsWith t .haltInstr .m 4) = true := by decide
theorem test_illegal_is_not_predicated :
    gives (step (at4 .p [(4, 0x10000000)])) (fun t => haltsWith t .illegalOpcode .v 4) = true := by decide
theorem test_skipped_load_does_not_fault :
    gives (step (at4 .z [(4, 0x04480064)])) (fun t => runsTo t .z 5) = true := by decide
theorem test_fetch_fault_leaves_no_record :
    gives (step { at4 .z [] with pc := 16 })
      (fun t => haltsWith t .memFault .z 16 && t.trace.isEmpty) = true := by decide

/-- Section 2.10: no start, no step. -/
theorem test_reset_does_not_step :
    (match step State.reset with | .fault .coreHalted => true | _ => false) = true := by decide
/-- `ADD r1,r0,r0[2]` (section 1.1) as the first instruction after reset. -/
theorem test_first_instruction_after_reset :
    gives (step (State.reset.withFetchWord 32 0x0DC40002))
      (fun t => runsTo t .p 1 && decide (t.x 1 = 2)
        && decide (t.trace = [⟨0, 0x0DC40002, ⟨3, ⟨7, 1, 0, 0, 2⟩⟩⟩])) = true := by decide
/-- Section 2.10: start at 16 of 16 cells, then one step. -/
theorem test_start_out_of_range :
    gives (step ((State.afterReset ⟨16, []⟩ []).start 16))
      (fun t => haltsWith t .memFault .z 16) = true := by decide

/-! Witnesses: for each statement of Certificates/Slice0/Obligations.lean that has hypotheses, a
concrete state and operands that meet them, at the ends of the ranges where it has several clauses. -/

/-- The Running core at address 4 with `ADD r3,r1,r2[3]` there. -/
def sAdd : State := at4 .z [(4, 0x0DCC4803)]
/-- With `STORE r1,r0,r0[5]` there, and 7 in register 1. -/
def sStore : State := (at4 .z [(4, 0x09C40005)]).writeReg 1 7
/-- Register 1 at the top of the range, register 2 at the bottom. -/
def sEnds : State := ((at4 .z []).writeReg 1 0x7FFFFFFF).writeReg 2 0x80000000

theorem witness_StepRunsDecodedInstruction :
    sAdd.halted = false ∧ sAdd.fetch = some 0x0DCC4803 ∧
      decode 0x0DCC4803 = .ok (.add ⟨7, 3, 1, 2, 3⟩) := by decide
theorem witness_FetchReadsAtPcOrHalts :
    (0 ≤ sint (15 : Word) ∧ sint (15 : Word) < 16) ∧ ¬ (0 ≤ sint (16 : Word) ∧ sint (16 : Word) < 16) ∧
      ¬ (0 ≤ sint (-1 : Word) ∧ sint (-1 : Word) < 16) ∧
      { sAdd with pc := 16 }.halted = false ∧ sAdd.mem.size = 16 := by decide
theorem witness_IllegalWordsHaltTheCore :
    (0x13FFFFFF : Word).toNat / 2 ^ 26 = 4 ∧ 8 ≤ (0x20000000 : Word).toNat / 2 ^ 26 ∧
      ¬ 8 ≤ (0x1FFFFFFF : Word).toNat / 2 ^ 26 ∧ (0x80000000 : Word).msb = true ∧
      (at4 .z [(4, 0x20000000)]).halted = false ∧
      (at4 .z [(4, 0x20000000)]).fetch = some 0x20000000 := by decide
theorem witness_CoreStepsExactlyWhileRunning :
    sAdd.halted = false ∧ State.reset.halted = true := by decide
theorem witness_OneRecordPerSuccessfulFetch :
    (∃ t, step sAdd = .next t ∧ sAdd.fetch = some 0x0DCC4803) ∧
      ∃ t, step { sAdd with pc := 16 } = .next t ∧ { sAdd with pc := 16 }.fetch = none :=
  ⟨⟨_, rfl, by decide⟩, _, rfl, by decide⟩
theorem witness_ObservationPortIsInert : ∃ t, step sAdd = .next t := ⟨_, rfl⟩
theorem witness_WordsAndFieldsRoundTrip :
    (⟨15, 15, 0, 15, -512⟩ : Fields).wellFormed = true ∧
      (⟨0, 0, 15, 0, 511⟩ : Fields).wellFormed = true := by decide
theorem witness_InstructionsRoundTrip :
    (Instr.mul ⟨0, 7, 8, 9, 511⟩).wellFormed = true ∧
      decode 0x181E25FF = .ok (.mul ⟨0, 7, 8, 9, 511⟩) := by decide
theorem witness_SkippedInstructionOnlyAdvancesPc :
    (∀ f, Instr.store ⟨1, 1, 0, 0, 100⟩ ≠ .halt f) ∧ predicateAdmits sAdd.cond 1 = false :=
  ⟨fun _ => Instr.noConfusion, by decide⟩
theorem witness_AlwaysIsSkippedWhileConditionIsV :
    (at4 .v [(4, 0x09CC000A)]).halted = false ∧ (at4 .v [(4, 0x09CC000A)]).cond = .v ∧
      (at4 .v [(4, 0x09CC000A)]).fetch = some 0x09CC000A ∧
      (0x09CC000A : Word).toNat / 2 ^ 26 ∈ [1, 2, 3, 5, 6, 7] ∧
      (0x09CC000A : Word).toNat / 2 ^ 22 % 16 = 7 := by decide
/-- `floordiv(-7, 2) = -4` and `floordiv(7, -2) = -4` (R134). -/
theorem witness_floorQuotient : IsFloorQuotient (-7) 2 (-4) ∧ IsFloorQuotient 7 (-2) (-4) :=
  ⟨.inl ⟨by decide, by decide, fun n h => by omega⟩, .inr ⟨by decide, by decide, fun n h => by omega⟩⟩
/-- The one quotient out of range, and the largest in range. -/
theorem witness_floorQuotient_ends :
    IsFloorQuotient (-2 ^ 31) (-1) (2 ^ 31) ∧ IsFloorQuotient (2 ^ 31 - 1) 1 (2 ^ 31 - 1) :=
  ⟨.inr ⟨by decide, by decide, fun n h => by omega⟩, .inl ⟨by decide, by decide, fun n h => by omega⟩⟩
theorem witness_AluOperationTable :
    (2 ^ 31 - 1 : Int) = (2 ^ 31 - 2) + 1 ∧ (2 ^ 31 : Int) = 0 - (-2 ^ 31) ∧
      (-2 ^ 31 : Int) = -65536 * 32768 ∧ 8 ≤ (8 : BitVec 6).toNat ∧
      IsFloorQuotient (-2 ^ 31) (-1) (2 ^ 31) :=
  ⟨by decide, by decide, by decide, by decide, witness_floorQuotient_ends.1⟩
theorem witness_AddWritesTheSumOrFaults :
    (0x0FFFFFFF : Word).toNat / 2 ^ 26 = 3 ∧ predicateAdmits sEnds.cond 2 = true ∧
      sEnds.x 1 + (sEnds.x 0 + 0) = 2 ^ 31 - 1 ∧ sEnds.x 1 + (sEnds.x 0 + 1) = 2 ^ 31 ∧
      sEnds.x 2 + (sEnds.x 0 + 0) = -2 ^ 31 ∧ sEnds.x 2 + (sEnds.x 0 + -1) = -2 ^ 31 - 1 := by decide
theorem witness_SubWritesTheDifferenceOrFaults :
    (0x14000000 : Word).toNat / 2 ^ 26 = 5 ∧ predicateAdmits sEnds.cond 7 = true ∧
      sEnds.x 2 - (sEnds.x 0 + 0) = -2 ^ 31 ∧ sEnds.x 2 - (sEnds.x 0 + 1) = -2 ^ 31 - 1 ∧
      sEnds.x 0 - (sEnds.x 2 + 1) = 2 ^ 31 - 1 ∧ sEnds.x 0 - (sEnds.x 2 + 0) = 2 ^ 31 := by decide
theorem witness_MulWritesTheProductOrFaults :
    (0x1BFFFFFF : Word).toNat / 2 ^ 26 = 6 ∧ predicateAdmits sEnds.cond 15 = true ∧
      sEnds.x 1 * (sEnds.x 0 + 1) = 2 ^ 31 - 1 ∧ sEnds.x 2 * (sEnds.x 0 + -1) = 2 ^ 31 := by decide
theorem witness_DivWritesTheFloorOrFaults :
    (0x1C000000 : Word).toNat / 2 ^ 26 = 7 ∧ predicateAdmits sEnds.cond 7 = true ∧
      sEnds.x 0 + 0 = 0 ∧ IsFloorQuotient (sEnds.x 2) (sEnds.x 0 + -1) (2 ^ 31) ∧
      IsFloorQuotient (sEnds.x 1) (sEnds.x 0 + 1) (2 ^ 31 - 1) := by
  have h1 : sEnds.x 1 = 2 ^ 31 - 1 := by decide
  have h2 : sEnds.x 2 = -2 ^ 31 := by decide
  have h0 : sEnds.x 0 = 0 := rfl
  rw [h0, h1, h2]
  exact ⟨by decide, by decide, rfl, witness_floorQuotient_ends⟩
theorem witness_CompareBySubtractionSetsCondition :
    predicateAdmits sStore.cond 7 = true ∧ sStore.x 0 < sStore.x 1 ∧ sStore.x 1 = sStore.x 1 ∧
      -2 ^ 31 ≤ sStore.x 0 - sStore.x 1 ∧ sStore.x 1 - sStore.x 0 ≤ 2 ^ 31 - 1 := by decide
theorem witness_ArithmeticFrame :
    (∃ t, exec (.add ⟨7, 3, 1, 2, 3⟩) sAdd = .next t) ∧ (∃ t, exec (.sub ⟨7, 3, 1, 2, 3⟩) sAdd = .next t) ∧
      (∃ t, exec (.mul ⟨7, 3, 1, 2, 3⟩) sAdd = .next t) ∧ ∃ t, exec (.div ⟨1, 3, 1, 2, 3⟩) sAdd = .next t :=
  ⟨⟨_, rfl⟩, ⟨_, rfl⟩, ⟨_, rfl⟩, _, rfl⟩
/-- An effective address of each kind: overflow, one below the memory, its two ends, one above. -/
theorem witness_LoadReadsTheCellOrFaults :
    (0x07FFFFFF : Word).toNat / 2 ^ 26 = 1 ∧ predicateAdmits sEnds.cond 7 = true ∧
      2 ^ 31 - 1 < sEnds.x 1 + (sEnds.x 0 + 1) ∧ sEnds.x 2 + (sEnds.x 0 + -1) < -2 ^ 31 ∧
      sEnds.x 0 + (sEnds.x 0 + -1) < 0 ∧ sEnds.x 0 + (sEnds.x 0 + 0) = 0 ∧
      sEnds.x 0 + (sEnds.x 0 + 15) < sEnds.mem.size ∧
      sEnds.mem.size ≤ sEnds.x 0 + (sEnds.x 0 + 16) := by decide
theorem witness_StoreWritesTheCellOrFaults :
    (0x0BFFFFFF : Word).toNat / 2 ^ 26 = 2 ∧ predicateAdmits sEnds.cond 7 = true ∧ sEnds.mem.wf = true ∧
      2 ^ 31 - 1 < sEnds.x 1 + (sEnds.x 0 + 1) ∧ sEnds.x 2 + (sEnds.x 0 + -1) < -2 ^ 31 ∧
      sEnds.x 0 + (sEnds.x 0 + -1) < 0 ∧ sEnds.x 0 + (sEnds.x 0 + 0) = 0 ∧
      sEnds.x 0 + (sEnds.x 0 + 15) < sEnds.mem.size ∧
      sEnds.mem.size ≤ sEnds.x 0 + (sEnds.x 0 + 16) := by decide
theorem witness_LoadFrame :
    (∃ t, exec (.load ⟨7, 3, 0, 0, 15⟩) sAdd = .next t) ∧ ∃ t, exec (.load ⟨7, 3, 0, 0, 16⟩) sAdd = .next t :=
  ⟨⟨_, rfl⟩, _, rfl⟩
theorem witness_StoreFrame :
    (∃ t, exec (.store ⟨7, 1, 0, 0, 5⟩) sStore = .next t) ∧ ∃ t, exec (.store ⟨1, 1, 0, 0, 5⟩) sStore = .next t :=
  ⟨⟨_, rfl⟩, _, rfl⟩
theorem witness_MemoryContentsDoNotReachCondition :
    (∃ t, exec (.load ⟨7, 3, 0, 0, 9⟩) sAdd = .next t) ∧
      ∃ t, exec (.load ⟨7, 3, 0, 0, 9⟩) { sAdd with mem := ⟨16, [(9, 5)]⟩ } = .next t :=
  ⟨⟨_, rfl⟩, _, rfl⟩
theorem witness_MemoryReadsBackWhatWasWritten :
    sStore.mem.wf = true ∧ sStore.mem.inRange 0 = true ∧ sStore.mem.inRange 15 = true ∧
      sStore.mem.inRange (-1) = false ∧ sStore.mem.inRange 16 = false := by decide
theorem witness_StoreThenLoadReturnsValue :
    ∃ t, exec (.store ⟨7, 1, 0, 0, 5⟩) sStore = .next t ∧ sStore.mem.wf = true ∧
      predicateAdmits sStore.cond 7 = true ∧ effectiveAddress ⟨7, 1, 0, 0, 5⟩ sStore = 5 ∧
      sStore.mem.size = 16 ∧ predicateAdmits t.cond 7 = true ∧
      effectiveAddress ⟨7, 2, 0, 0, 5⟩ t = 5 :=
  ⟨_, rfl, by decide⟩
theorem witness_StoreIsSeenByTheNextFetch :
    sStore.mem.wf = true ∧ sStore.halted = false ∧ sStore.fetch = some 0x09C40005 ∧
      decode 0x09C40005 = .ok (.store ⟨7, 1, 0, 0, 5⟩) ∧ predicateAdmits sStore.cond 7 = true ∧
      effectiveAddress ⟨7, 1, 0, 0, 5⟩ sStore = sint sStore.pc + 1 ∧
      sint sStore.pc + 1 < sStore.mem.size := by decide
theorem witness_OnlyAnExecutedStoreChangesACell :
    ∃ t, step sStore = .next t ∧ sStore.mem.wf = true ∧ t.mem.cellAt 5 ≠ sStore.mem.cellAt 5 :=
  ⟨_, rfl, by decide⟩
theorem witness_MemorySizeNeverChanges :
    (∃ t, react .coreStep sStore = .next t) ∧ (∃ t, react .hardwareReset sStore = .next t) ∧
      (∃ t, react (.start 3) State.reset = .next t) ∧ ∃ t, react (.hostWrite 3 9) State.reset = .next t :=
  ⟨⟨_, rfl⟩, ⟨_, rfl⟩, ⟨_, rfl⟩, _, rfl⟩
theorem witness_HaltHaltsWhateverItsFields : (0x03FFFFFF : Word).toNat < 2 ^ 26 := by decide
theorem witness_ZeroRegisterDiscardsWrites :
    predicateAdmits sStore.cond 7 = true ∧
      (alu opAdd (operand1 ⟨7, 0, 1, 0, 0⟩ sStore) (operand2 ⟨7, 0, 1, 0, 0⟩ sStore)).2 ≠ .v ∧
      sStore.mem.inRange (effectiveAddress ⟨7, 0, 0, 0, 15⟩ sStore) = true ∧
      sStore.mem.inRange (effectiveAddress ⟨7, 0, 0, 0, 16⟩ sStore) = false ∧
      effectiveAddress ⟨7, 0, 0, 0, 16⟩ sStore ≤ 2 ^ 31 - 1 ∧
      -2 ^ 31 ≤ effectiveAddress ⟨7, 0, 0, 0, 15⟩ sStore := by decide
theorem witness_WritingRegister15TransfersControl :
    predicateAdmits sStore.cond 7 = true ∧
      (alu opMul (operand1 ⟨7, 15, 1, 0, 1⟩ sStore) (operand2 ⟨7, 15, 1, 0, 1⟩ sStore)).2 ≠ .v ∧
      effectiveAddress ⟨7, 15, 1, 0, 1⟩ sStore = 8 ∧ sStore.mem.size = 16 := by decide
theorem witness_PcRelativeJumpCountsFromItself :
    predicateAdmits sAdd.cond 7 = true ∧ -2 ^ 31 ≤ sint sAdd.pc + 0 ∧ sint sAdd.pc + 511 ≤ 2 ^ 31 - 1 := by
  decide
theorem witness_PcMovesByOneOrByAWriteToIt :
    (∃ t, step sAdd = .next t ∧ t.halted = false ∧ t.pc = sAdd.pc + 1) ∧
      ∃ t, step (at4 .z [(4, 0x0DFC0007)]) = .next t ∧ t.halted = false ∧ t.pc = 7 :=
  ⟨⟨_, rfl, by decide⟩, _, rfl, by decide⟩
theorem witness_PcIncrementNeverWraps :
    ({ State.reset with pc := 0x7FFFFFFE } : State).mem.wf = true ∧
      ({ State.reset with pc := 0x7FFFFFFE } : State).fetch = some 0 := by decide
theorem witness_ConditionIsWrittenByTheAluOrAnIllegalWord :
    (∃ t, step sAdd = .next t ∧ t.cond ≠ sAdd.cond) ∧
      ∃ t, step (at4 .z [(4, 0x10000000)]) = .next t ∧ t.cond ≠ (at4 .z [(4, 0x10000000)]).cond :=
  ⟨⟨_, rfl, by decide⟩, _, rfl, by decide⟩
theorem witness_ConditionBecomesVOnlyByAFault :
    ∃ t, step (at4 .z [(4, 0x1DCC4000)]) = .next t ∧ (at4 .z [(4, 0x1DCC4000)]).cond ≠ .v ∧ t.cond = .v :=
  ⟨_, rfl, by decide⟩
theorem witness_HaltingStepLeavesExactState :
    (∃ t, step { sAdd with pc := -1 } = .next t ∧ t.halted = true) ∧
      (∃ t, step (at4 .z []) = .next t ∧ t.halted = true) ∧
      (∃ t, step (at4 .z [(4, 0x10000000)]) = .next t ∧ t.halted = true) ∧
      (∃ t, step (at4 .z [(4, 0x1DCC4000)]) = .next t ∧ t.halted = true) ∧
      ∃ t, step (at4 .z [(4, 0x05C80010)]) = .next t ∧ t.halted = true :=
  ⟨⟨_, rfl, by decide⟩, ⟨_, rfl, by decide⟩, ⟨_, rfl, by decide⟩, ⟨_, rfl, by decide⟩, _, rfl, by decide⟩
theorem witness_StartEventMakesTheCoreRun :
    State.reset.halted = true ∧ sAdd.halted = false ∧
      ¬ (0 ≤ sint (-1 : Word) ∧ sint (-1 : Word) < State.reset.mem.size) := by decide
theorem witness_HostWritesMemoryOnlyWhileHalted :
    State.reset.halted = true ∧ sAdd.halted = false ∧
      (0 : Int) ≤ 0x7FFFFFFE ∧ (0x7FFFFFFE : Int) < State.reset.mem.size ∧
      State.reset.mem.size ≤ (0x7FFFFFFF : Int) := by decide
theorem witness_StepKeepsTheInvariant : sStore.Inv ∧ ∃ t, step sStore = .next t :=
  ⟨⟨by decide, by decide, by decide, by decide, by decide⟩, _, rfl⟩
/-- After power-on, a load of `ADD r1,r0,r0[2]`, a start at 0 and one step. -/
theorem witness_ReachableStatesMeetTheInvariant :
    ∃ t, Reachable t ∧ gives (.next t) (fun t => runsTo t .p 1 && decide (t.x 1 = 2)) = true :=
  ⟨_, .event .coreStep _ _ (.event (.start 0) _ _ (.event (.hostWrite 0 0x0DC40002) _ _
    (.powerOn ⟨16, []⟩ (by decide)) rfl) rfl) rfl, by decide⟩

end Sys2Proof.Tests
end

section
/-! Where a step leaves the halt latch (00_scope.md R12, 40_step_and_predication.md R114). -/

namespace Sys2Proof.Machine

/-- The ends of a step that R12 admits: still Running, or halted with a reason that a step can give. -/
def StepEnd (t : State) : Prop := t.halted = false ∨ EndedNormally t ∨ WentWrong t

theorem stepEnd_of_running {t : State} (h : t.halted = false) : StepEnd t := .inl h

theorem stepEnd_raise_haltInstr (s : State) : StepEnd (s.raise .haltInstr) := .inr (.inl ⟨rfl, rfl⟩)

theorem stepEnd_raise_arithFault (s : State) : StepEnd (s.raise .arithFault) :=
  .inr (.inr ⟨rfl, .inl rfl⟩)

theorem stepEnd_raise_memFault (s : State) : StepEnd (s.raise .memFault) :=
  .inr (.inr ⟨rfl, .inr (.inr rfl)⟩)

theorem stepEnd_takeIllegalOpcode (s : State) : StepEnd (takeIllegalOpcode s) :=
  .inr (.inr ⟨rfl, .inr (.inl rfl)⟩)

/-- Every instruction that starts in a Running state comes to one of the ends of R12. -/
theorem exec_stepEnd (i : Instr) {s : State} (hrun : s.halted = false) :
    ∃ t, exec i s = .next t ∧ StepEnd t := by
  rcases exec_cases i s with ⟨_, _, halts⟩ | ⟨_, _, skips⟩ | ⟨_, _, _, overflows⟩ |
    ⟨_, _, _, _, _, _, computes⟩ | ⟨_, _, _, _, _, loads⟩ | ⟨_, _, _, _, _, stores⟩ |
    ⟨_, _, _, _, _, misses⟩
  · exact ⟨_, halts, stepEnd_raise_haltInstr s⟩
  · exact ⟨_, skips, stepEnd_of_running hrun⟩
  · exact ⟨_, overflows, stepEnd_raise_arithFault _⟩
  · exact ⟨_, computes, stepEnd_of_running (by simpa using hrun)⟩
  · exact ⟨_, loads, stepEnd_of_running (by simpa using hrun)⟩
  · exact ⟨_, stores, stepEnd_of_running hrun⟩
  · exact ⟨_, misses, stepEnd_raise_memFault _⟩

/-- A Running core takes its step, to one of the ends of R12. -/
theorem step_stepEnd_of_running {s : State} (hrun : s.halted = false) :
    ∃ t, step s = .next t ∧ StepEnd t := by
  rcases cycle_cases exec s with ⟨hhalt, _⟩ | ⟨_, _, fetchFaults⟩ | ⟨_, _, _, _, _, illegal⟩ |
    ⟨w, i, _, _, _, runs⟩
  · simp [hrun] at hhalt
  · exact ⟨_, fetchFaults, stepEnd_raise_memFault s⟩
  · exact ⟨_, illegal, stepEnd_takeIllegalOpcode _⟩
  · obtain ⟨t, ht, hend⟩ := exec_stepEnd i (s := s.observe w) hrun
    exact ⟨t, runs.trans ht, hend⟩

/-- A Halted core performs no step (R114). -/
theorem step_of_halted {s : State} (hhalt : s.halted = true) : step s = .fault .coreHalted :=
  if_pos hhalt

/-- Settles O4: the Running half by the cases of one step and of the instruction's meaning, the
Halted half because the halt latch is tested before the fetch. -/
theorem coreStepsExactlyWhileRunning : Obligations.CoreStepsExactlyWhileRunning := by
  intro s
  constructor
  · exact step_stepEnd_of_running
  · intro hhalt t hnext
    rw [step_of_halted hhalt] at hnext
    cases hnext

end Sys2Proof.Machine
end

section
/-! Register 0 discards writes (10_state.md R22): an executed instruction runs its write-back, and
each write-back with target 0 leaves every register as it was. -/

namespace Sys2Proof.Machine

theorem signIs_flagOf (t : Int) : SignIs t (flagOf t) := by
  rcases flagOf_cases t with ⟨ht, hc⟩ | ⟨ht, hc⟩ | ⟨ht, hc⟩
  · exact .inl ⟨hc, ht⟩
  · exact .inr (.inl ⟨hc, ht⟩)
  · exact .inr (.inr ⟨hc, ht⟩)

/-- An instruction that is executed, the ALU answering a result, runs its write-back. -/
theorem predicated_of_result {op : BitVec 6} {f : Fields} {s : State} {t : Int}
    (wb : Int → State → State) (hp : predicateAdmits s.cond f.pred = true)
    (ha : alu op (operand1 f s) (operand2 f s) = (t, flagOf t)) :
    predicated op f wb s = wb t (executedState s t) := by
  rcases predicated_cases op f wb s with ⟨skipped, _⟩ | ⟨_, overflow, _⟩ | ⟨u, _, _, hu, executed⟩
  · rw [hp] at skipped
    cases skipped
  · exact absurd (congrArg Prod.snd (ha.symm.trans overflow)) (flagOf_ne_v t)
  · obtain rfl : t = u := congrArg Prod.fst (ha.symm.trans hu)
    exact executed

/-- The four arithmetic instructions differ in the operation alone (R112). -/
theorem exec_arith {i : Instr} {f : Fields}
    (hi : i = .add f ∨ i = .sub f ∨ i = .mul f ∨ i = .div f) (s : State) :
    exec i s = .next (predicated i.opcode f (writeResult f) s) := by
  rcases hi with rfl | rfl | rfl | rfl <;> rfl

theorem writeResult_target_zero {f : Fields} (h0 : f.target = 0) (r : Int) (s : State) :
    writeResult f r s = s := by
  rw [writeResult, h0, writeReg_zero]

/-- Of the four arithmetic instructions with target 0, only the condition and the program counter
show that they were executed. -/
theorem exec_arith_target_zero {i : Instr} {f : Fields} {s : State}
    (hi : i = .add f ∨ i = .sub f ∨ i = .mul f ∨ i = .div f) (h0 : f.target = 0)
    (hp : predicateAdmits s.cond f.pred = true)
    (hv : (alu i.opcode (operand1 f s) (operand2 f s)).2 ≠ .v) :
    exec i s = .next ((s.setCond (alu i.opcode (operand1 f s) (operand2 f s)).2).advancePc) := by
  rcases alu_cases i.opcode (operand1 f s) (operand2 f s) with ⟨t, _, result⟩ | overflow
  · rw [exec_arith hi, predicated_of_result _ hp result, writeResult_target_zero h0, result]
  · exact absurd (congrArg Prod.snd overflow) hv

/-- The ALU's answer to the address computation of LOAD and of STORE, where it is in range (R160). -/
theorem checkedResult_effectiveAddress {f : Fields} {s : State}
    (hf : fitsWord (effectiveAddress f s) = true) :
    checkedResult (operand1 f s + operand2 f s) =
      (effectiveAddress f s, flagOf (effectiveAddress f s)) :=
  if_pos hf

section Access
variable {f : Fields} {s : State} (hp : predicateAdmits s.cond f.pred = true)
  (hf : fitsWord (effectiveAddress f s) = true)
include hp hf

theorem exec_load_of_fits :
    exec (.load f) s =
      .next (loadAccess f (effectiveAddress f s) (executedState s (effectiveAddress f s))) :=
  congrArg _ (predicated_of_result (op := opLoad) _ hp (checkedResult_effectiveAddress hf))

theorem exec_store_of_fits :
    exec (.store f) s =
      .next (storeAccess f (effectiveAddress f s) (executedState s (effectiveAddress f s))) :=
  congrArg _ (predicated_of_result (op := opStore) _ hp (checkedResult_effectiveAddress hf))

end Access

section TargetZero
variable {f : Fields} (h0 : f.target = 0) (ea : Int) (s : State)
include h0

/-- A LOAD of register 0 reads the cell, with its bounds check, and drops the value. -/
theorem loadAccess_target_zero :
    loadAccess f ea s = if s.mem.inRange ea then s else s.raise .memFault := by
  rcases loadAccess_cases f ea s with ⟨inside, hl⟩ | ⟨outside, hl⟩
  · rw [hl, h0, writeReg_zero, if_pos inside]
  · simp [hl, outside]

/-- A STORE of register 0 stores the value 0. -/
theorem storeAccess_target_zero :
    storeAccess f ea s =
      if s.mem.inRange ea then { s with mem := s.mem.setCell ea.toNat 0 }
      else s.raise .memFault := by
  rcases storeAccess_cases f ea s with ⟨inside, hs⟩ | ⟨outside, hs⟩
  · rw [hs, h0, readReg_zero, if_pos inside]
  · simp [hs, outside]

end TargetZero

/-- Settles O35: a read of register 0 and a write to it by the laws of the registers; the
instructions because each runs its write-back on the executed state, which with target 0 drops the
result or stores 0. -/
theorem zeroRegisterDiscardsWrites : Obligations.ZeroRegisterDiscardsWrites := by
  refine ⟨x_zero, writeReg_zero, fun f s h0 hp => ⟨?arith, ?access⟩⟩
  case arith => exact fun i hi hv => exec_arith_target_zero hi h0 hp hv
  case access =>
    intro hhi hlo
    have hf := (fitsWord_iff _).2 ⟨hlo, hhi⟩
    refine ⟨flagOf (effectiveAddress f s), signIs_flagOf _, fun inside => ?_, fun outside => ?_,
      fun inside => ?_⟩
    · rw [exec_load_of_fits hp hf, loadAccess_target_zero h0]
      exact congrArg _ (if_pos inside)
    · rw [exec_load_of_fits hp hf, loadAccess_target_zero h0]
      exact congrArg _ (if_neg (ne_true_of_eq_false outside))
    · rw [exec_store_of_fits hp hf, storeAccess_target_zero h0]
      exact congrArg _ (if_pos inside)

end Sys2Proof.Machine
end

section
/-! The codec as arithmetic (30_encoding.md R72, R79): each field is a digit of the word's number, the
word's number is the sum of its shifted fields, and the two round trips follow from the two readings. -/

namespace Sys2Proof

/-- A bit field is a digit of the word's number. -/
theorem extractLsb'_toNat_eq_div_mod (w : Word) (lo len : Nat) :
    (w.extractLsb' lo len).toNat = w.toNat / 2 ^ lo % 2 ^ len := by
  rw [BitVec.extractLsb'_toNat, Nat.shiftRight_eq_div_pow]

theorem regField_val (w : Word) (lo : Nat) : (regField w lo).val = w.toNat / 2 ^ lo % 16 :=
  extractLsb'_toNat_eq_div_mod w lo 4

section Fields
variable (w : Word)

/-- Nothing lies above the opcode, so it is the whole quotient. -/
@[simp] theorem decodeWord_opcode_toNat : (decodeWord w).opcode.toNat = w.toNat / 2 ^ 26 := by
  have hfield : (decodeWord w).opcode.toNat = w.toNat / 2 ^ 26 % 2 ^ 6 :=
    extractLsb'_toNat_eq_div_mod w 26 6
  have := w.isLt
  omega

@[simp] theorem decodeWord_pred_toNat :
    (decodeWord w).fields.pred.toNat = w.toNat / 2 ^ 22 % 16 :=
  extractLsb'_toNat_eq_div_mod w 22 4

@[simp] theorem decodeWord_target_val :
    (decodeWord w).fields.target.val = w.toNat / 2 ^ 18 % 16 := regField_val w 18

@[simp] theorem decodeWord_src1_val :
    (decodeWord w).fields.src1.val = w.toNat / 2 ^ 14 % 16 := regField_val w 14

@[simp] theorem decodeWord_src2_val :
    (decodeWord w).fields.src2.val = w.toNat / 2 ^ 10 % 16 := regField_val w 10

theorem decodeWord_offset :
    (decodeWord w).fields.offset =
      if w.toNat % 1024 < 512 then ((w.toNat % 1024 : Nat) : Int)
      else ((w.toNat % 1024 : Nat) : Int) - 1024 := by
  have hfield : (w.extractLsb' 0 10).toNat = w.toNat % 1024 := by
    simp only [extractLsb'_toNat_eq_div_mod, Nat.pow_zero, Nat.div_one, Nat.reducePow]
  rw [← hfield]
  rfl

/-- The displacement modulo 1024 is the word's low 10 bits again (R74). -/
@[simp] theorem decodeWord_offset_emod :
    ((decodeWord w).fields.offset % 1024).toNat = w.toNat % 1024 := by
  rw [decodeWord_offset]
  split <;> omega

end Fields

/-- Settles O7: each field is the digit that its position in R71 gives. -/
theorem decoderReadsTheSixFields : Obligations.DecoderReadsTheSixFields := fun w =>
  ⟨decodeWord_opcode_toNat w, decodeWord_pred_toNat w, decodeWord_target_val w,
    decodeWord_src1_val w, decodeWord_src2_val w, decodeWord_offset w⟩

/-- Appending a field shifts what stands before it to the left and adds the field. -/
theorem toNat_append_eq_add {m n : Nat} (x : BitVec m) (y : BitVec n) :
    (x ++ y).toNat = x.toNat * 2 ^ n + y.toNat := by
  rw [BitVec.toNat_append, ← Nat.shiftLeft_add_eq_or_of_lt y.isLt, Nat.shiftLeft_eq]

/-- The formula of R79; it takes the displacement modulo 1024, whether it fits or not. -/
theorem encodeWord_toNat (d : DecodedInstruction) :
    (encodeWord d).toNat =
      d.opcode.toNat * 2 ^ 26 + d.fields.pred.toNat * 2 ^ 22 + d.fields.target.val * 2 ^ 18
        + d.fields.src1.val * 2 ^ 14 + d.fields.src2.val * 2 ^ 10
        + (d.fields.offset % 1024).toNat := by
  have hoffset : (BitVec.ofInt 10 d.fields.offset).toNat = (d.fields.offset % 1024).toNat :=
    BitVec.toNat_ofInt _
  simp only [encodeWord, toNat_append_eq_add, BitVec.toNat_ofFin, hoffset]
  omega

/-- Decoded words are compared field by field, as numbers. -/
theorem DecodedInstruction.eq_of_fields {d e : DecodedInstruction}
    (hopcode : d.opcode.toNat = e.opcode.toNat) (hpred : d.fields.pred.toNat = e.fields.pred.toNat)
    (htarget : d.fields.target.val = e.fields.target.val)
    (hsrc1 : d.fields.src1.val = e.fields.src1.val) (hsrc2 : d.fields.src2.val = e.fields.src2.val)
    (hoffset : d.fields.offset = e.fields.offset) : d = e := by
  obtain ⟨_, _, _, _, _, _⟩ := d
  obtain ⟨_, _, _, _, _, _⟩ := e
  cases BitVec.eq_of_toNat_eq hopcode
  cases BitVec.eq_of_toNat_eq hpred
  cases Fin.ext htarget
  cases Fin.ext hsrc1
  cases Fin.ext hsrc2
  cases hoffset
  rfl

theorem Fields.wellFormed_iff (f : Fields) :
    f.wellFormed = true ↔ -512 ≤ f.offset ∧ f.offset ≤ 511 := by
  simp [Fields.wellFormed, offsetFits]

/-- The decoder reads each field back out of the sum of R79: the fields below it do not reach its
position, and those above it vanish modulo its width. -/
theorem decodeWord_encodeWord {d : DecodedInstruction} (hd : d.fields.wellFormed = true) :
    decodeWord (encodeWord d) = d := by
  have hword := encodeWord_toNat d
  have hpred := d.fields.pred.isLt
  obtain ⟨hlo, hhi⟩ := d.fields.wellFormed_iff.1 hd
  apply DecodedInstruction.eq_of_fields
  case hoffset =>
    rw [decodeWord_offset]
    split <;> omega
  all_goals
    simp only [decodeWord_opcode_toNat, decodeWord_pred_toNat, decodeWord_target_val,
      decodeWord_src1_val, decodeWord_src2_val]
    omega

/-- The digits of a word's number add up to it. -/
theorem encodeWord_decodeWord (w : Word) : encodeWord (decodeWord w) = w := by
  apply BitVec.eq_of_toNat_eq
  rw [encodeWord_toNat, decodeWord_opcode_toNat, decodeWord_pred_toNat, decodeWord_target_val,
    decodeWord_src1_val, decodeWord_src2_val, decodeWord_offset_emod]
  omega

/-- Settles O8: both round trips are arithmetic on the formula of R79 and the digits of R72. -/
theorem wordsAndFieldsRoundTrip : Obligations.WordsAndFieldsRoundTrip :=
  ⟨fun d hd => ⟨encodeWord_toNat d, decodeWord_encodeWord hd⟩, encodeWord_decodeWord⟩

end Sys2Proof
end

section
/-! The illegal words (30_encoding.md R80) and the step that fetches one (43_halt_and_illegal.md
R176). -/

namespace Sys2Proof

/-- The illegal class is what the other four leave over: none of the seven opcodes (R75, R92). -/
theorem isIllegal_iff_ne (op : BitVec 6) :
    isIllegal op = true ↔ op ≠ opHalt ∧ op ≠ opLoad ∧ op ≠ opStore ∧ op ≠ opAdd ∧ op ≠ opSub ∧
      op ≠ opMul ∧ op ≠ opDiv := by
  simp [isIllegal, isHalt, isLoad, isStore, isAlu, and_assoc]

/-- R80: 4 is the one gap below 8 in the opcode map. -/
theorem isIllegal_iff_toNat (op : BitVec 6) :
    isIllegal op = true ↔ op.toNat = 4 ∨ 8 ≤ op.toNat := by
  rw [isIllegal_iff_ne]
  unfold opHalt opLoad opStore opAdd opSub opMul opDiv
  bv_omega

/-- R80, on the number of the word. -/
theorem decode_error_iff_opcode (w : Word) :
    (∃ e, decode w = .error e) ↔ w.toNat / 2 ^ 26 = 4 ∨ 8 ≤ w.toNat / 2 ^ 26 := by
  rw [decode_eq_error_iff, isIllegal_iff_toNat, decodeWord_opcode_toNat]

/-- Bit 31 is the opcode's highest bit. -/
theorem eight_le_opcode_of_msb {w : Word} (hmsb : w.msb = true) : 8 ≤ w.toNat / 2 ^ 26 := by
  have : 2 ^ 31 ≤ w.toNat := BitVec.le_toNat_of_msb_true hmsb
  omega

end Sys2Proof

namespace Sys2Proof.Machine

/-- A Running core that fetches a word that is no instruction records it and takes R176's halt. -/
theorem step_of_decode_error {s : State} {w : Word} {e : DecodeError} (hrun : s.halted = false)
    (hfetch : s.fetch = some w) (hillegal : decode w = .error e) :
    step s = .next (takeIllegalOpcode (s.observe w)) := by
  simp [step, cycle, hrun, hfetch, hillegal]

/-- Settles O3: the classification by the opcode's number, the halt by the step on a word that is no
instruction. -/
theorem illegalWordsHaltTheCore : Obligations.IllegalWordsHaltTheCore := by
  refine ⟨decode_error_iff_opcode, ?bit31, ?halts⟩
  case bit31 =>
    exact fun w hmsb => (decode_error_iff_opcode w).2 (.inr (eight_le_opcode_of_msb hmsb))
  case halts =>
    intro s w hrun hfetch hopcode
    obtain ⟨e, hillegal⟩ := (decode_error_iff_opcode w).2 hopcode
    exact step_of_decode_error hrun hfetch hillegal

end Sys2Proof.Machine
end

section
/-! The two ways in which a step does not reach its instruction's effect: the predicate excludes it
(40_step_and_predication.md R106), or the fetch is outside memory (R102). -/

namespace Sys2Proof.Machine

/-- R106: whatever the operation and the write-back, neither is reached. -/
theorem predicated_of_excluded {f : Fields} {s : State} (op : BitVec 6)
    (wb : Int → State → State) (hp : predicateAdmits s.cond f.pred = false) :
    predicated op f wb s = s.advancePc :=
  if_neg (ne_true_of_eq_false hp)

/-- Each instruction but HALT is a `predicated` one, so that an excluding mask skips it. -/
theorem exec_of_excluded {i : Instr} {s : State} (hi : ∀ f, i ≠ .halt f)
    (hp : predicateAdmits s.cond i.fields.pred = false) : exec i s = .next s.advancePc := by
  cases i with
  | halt f => exact absurd rfl (hi f)
  | load f => exact congrArg _ (predicated_of_excluded opLoad (loadAccess f) hp)
  | store f => exact congrArg _ (predicated_of_excluded opStore (storeAccess f) hp)
  | add f => exact congrArg _ (predicated_of_excluded opAdd (writeResult f) hp)
  | sub f => exact congrArg _ (predicated_of_excluded opSub (writeResult f) hp)
  | mul f => exact congrArg _ (predicated_of_excluded opMul (writeResult f) hp)
  | div f => exact congrArg _ (predicated_of_excluded opDiv (writeResult f) hp)

/-- Settles O13: the skip of each predicated instruction, with the increment of the program counter
written out. -/
theorem skippedInstructionOnlyAdvancesPc : Obligations.SkippedInstructionOnlyAdvancesPc :=
  fun _ _ => exec_of_excluded

theorem fetch_of_inRange {s : State} (inside : s.mem.inRange (sint s.pc) = true) :
    s.fetch = some (s.mem.cellAt (sint s.pc).toNat) :=
  if_pos inside

theorem fetch_of_not_inRange {s : State} (outside : ¬ s.mem.inRange (sint s.pc) = true) :
    s.fetch = none :=
  if_neg outside

/-- A fetch fault halts a Running core before any record is put out (R102, R103). -/
theorem step_of_fetch_none {s : State} (hrun : s.halted = false) (hfetch : s.fetch = none) :
    step s = .next (s.raise .memFault) := by
  simp [step, cycle, hrun, hfetch]

/-- Settles O2: the fetch is decided by the range test on register 15, and a fetch that gives
nothing is the step's first exit. -/
theorem fetchReadsAtPcOrHalts : Obligations.FetchReadsAtPcOrHalts := by
  intro s
  rw [← inRange_iff]
  constructor
  · exact fetch_of_inRange
  · exact fun hrun outside => step_of_fetch_none hrun (fetch_of_not_inRange outside)

end Sys2Proof.Machine
end

section
/-! The ALU, row by row (41_alu_arithmetic.md R131): each row is the range check of one exact
result, and the quotient of the DIV row is the floor of R10. -/

namespace Sys2Proof.Machine

theorem checkedResult_of_inRange {t : Int} (ht : -2 ^ 31 ≤ t ∧ t ≤ 2 ^ 31 - 1) :
    checkedResult t = (t, flagOf t) :=
  if_pos ((fitsWord_iff t).2 ht)

theorem checkedResult_of_outOfRange {t : Int} (ht : t < -2 ^ 31 ∨ 2 ^ 31 - 1 < t) :
    checkedResult t = (0, .v) :=
  if_neg fun fits => by
    obtain ⟨hlo, hhi⟩ := (fitsWord_iff t).1 fits
    omega

theorem le_floordiv_iff_of_pos {a b : Int} (hb : 0 < b) (n : Int) :
    n ≤ floordiv a b ↔ n * b ≤ a := by
  rw [floordiv, Int.fdiv_eq_ediv_of_nonneg a hb.le, Int.le_ediv_iff_mul_le hb]

/-- The quotient by a negative divisor is the one of both operands negated. -/
theorem le_floordiv_iff_of_neg {a b : Int} (hb : b < 0) (n : Int) :
    n ≤ floordiv a b ↔ a ≤ n * b := by
  have hneg : floordiv a b = floordiv (-a) (-b) := (Int.neg_fdiv_neg a b).symm
  rw [hneg, le_floordiv_iff_of_pos (neg_pos.2 hb), mul_neg, neg_le_neg_iff]

/-- The floor of R10 is unique, and `floordiv` computes it. -/
theorem IsFloorQuotient.eq_floordiv {a b q : Int} (hq : IsFloorQuotient a b q) :
    q = floordiv a b := by
  rcases hq with ⟨hb, hle, greatest⟩ | ⟨hb, hle, greatest⟩
  · have floor := le_floordiv_iff_of_pos (a := a) hb
    exact le_antisymm ((floor q).2 hle) (greatest _ ((floor _).1 le_rfl))
  · have floor := le_floordiv_iff_of_neg (a := a) hb
    exact le_antisymm ((floor q).2 hle) (greatest _ ((floor _).1 le_rfl))

theorem IsFloorQuotient.divisor_ne_zero {a b q : Int} (hq : IsFloorQuotient a b q) : b ≠ 0 := by
  rcases hq with ⟨hb, _⟩ | ⟨hb, _⟩
  · exact hb.ne'
  · exact hb.ne

/-- A floor quotient cannot overflow downward (R136): the least dividend is a lower bound of every
quotient. -/
theorem IsFloorQuotient.lower_bound {a b q : Int} (hq : IsFloorQuotient a b q)
    (ha : -2 ^ 31 ≤ a ∧ a ≤ 2 ^ 31 - 1) : -2 ^ 31 ≤ q := by
  rcases hq with ⟨hb, _, greatest⟩ | ⟨hb, _, greatest⟩ <;>
    exact greatest _ (by omega)

theorem alu_div_zero (a : Int) : alu opDiv a 0 = (0, .v) := rfl

theorem alu_div_of_isFloorQuotient {a b q : Int} (hq : IsFloorQuotient a b q) :
    alu opDiv a b = checkedResult q := by
  rw [alu_div, if_neg hq.divisor_ne_zero, hq.eq_floordiv]

/-- R138: an operation outside the table gives flag V. -/
theorem alu_of_isIllegal {op : BitVec 6} (hop : isIllegal op = true) (a b : Int) :
    alu op a b = (0, .v) := by
  obtain ⟨hhalt, hload, hstore, hadd, hsub, hmul, hdiv⟩ := (isIllegal_iff_ne op).1 hop
  simp [alu, hhalt, hload, hstore, hadd, hsub, hmul, hdiv]

/-- Settles O15: each row of the table names the exact result that the ALU range-checks; the
remaining rows are fixed answers. -/
theorem aluOperationTable : Obligations.AluOperationTable := by
  refine ⟨fun op a b t hrow => ?table, alu_div_zero, fun _ _ => rfl, fun op a b hop => ?illegal⟩
  case table =>
    have halu : alu op a b = checkedResult t := by
      rcases hrow with ⟨rfl | rfl | rfl, rfl⟩ | ⟨rfl, rfl⟩ | ⟨rfl, rfl⟩ | ⟨rfl, hq⟩
      · exact alu_add a b
      · exact alu_load a b
      · exact alu_store a b
      · exact alu_sub a b
      · exact alu_mul a b
      · exact alu_div_of_isFloorQuotient hq
    rw [halu]
    exact ⟨fun ht => ⟨flagOf t, signIs_flagOf t, checkedResult_of_inRange ht⟩,
      checkedResult_of_outOfRange⟩
  case illegal =>
    exact alu_of_isIllegal ((isIllegal_iff_toNat op).2 (hop.imp_left (congrArg BitVec.toNat))) a b

end Sys2Proof.Machine
end

section
/-! The arithmetic instructions (41_alu_arithmetic.md R140 to R143). They differ in the operation
alone, so each ends as the range check of its exact result decides: halted by an arithmetic fault,
or with the result written to the target. -/

namespace Sys2Proof.Machine

/-- A word with the opcode of an instruction, its fields being those of the word, is that
instruction. -/
theorem decode_of_opcode_toNat {w : Word} {i : Instr} (hop : w.toNat / 2 ^ 26 = i.opcode.toNat)
    (hf : i.fields = (decodeWord w).fields) : decode w = .ok i :=
  (decode_eq_ok_iff w i).2
    ⟨BitVec.eq_of_toNat_eq (hop.symm.trans (decodeWord_opcode_toNat w).symm), hf⟩

/-- An instruction that is executed, the ALU answering flag V, halts before the program counter
moves (R110). -/
theorem predicated_of_overflow {op : BitVec 6} {f : Fields} {s : State}
    (wb : Int → State → State) (hp : predicateAdmits s.cond f.pred = true)
    (ha : alu op (operand1 f s) (operand2 f s) = (0, .v)) :
    predicated op f wb s = (s.setCond .v).raise .arithFault := by
  simp [predicated, hp, ha]

/-- The write-back of an executed arithmetic instruction (R111, R112): the result in the target, the
program counter advanced unless it is the target, all else as before. -/
theorem wroteRegister_writeResult (f : Fields) (s : State) {t : Int} (ht : fitsWord t = true) :
    WroteRegister s (writeResult f t (executedState s t)) f.target t (flagOf t) where
  written hne := by rw [writeResult, State.x, readReg_writeReg_same _ _ hne, sint_bits32 ht]
  zero := x_zero _
  pc_next hne := writeReg_pc_other _ _ hne
  others r hr hpc := by
    rw [writeResult, readReg_writeReg_other _ _ hr, readReg_advancePc _ hpc, readReg_setCond]
  cond := writeReg_cond ..
  memory := writeReg_mem ..
  latch := ⟨writeReg_halted .., writeReg_haltReason ..⟩
  records := writeReg_trace ..

section Arith
variable {i : Instr} {f : Fields} {s : State}
  (hi : i = .add f ∨ i = .sub f ∨ i = .mul f ∨ i = .div f)
  (hp : predicateAdmits s.cond f.pred = true)
include hi hp

theorem exec_arith_of_overflow
    (ha : alu i.opcode (operand1 f s) (operand2 f s) = (0, .v)) :
    exec i s = .next { s with cond := .v, halted := true, haltReason := .arithFault } := by
  rw [exec_arith hi, predicated_of_overflow _ hp ha]
  rfl

/-- The two ends of an executed arithmetic instruction whose exact result is `t`. -/
theorem exec_arith_writes_or_faults {t : Int}
    (ha : alu i.opcode (operand1 f s) (operand2 f s) = checkedResult t) :
    (t < -2 ^ 31 ∨ 2 ^ 31 - 1 < t → exec i s =
      .next { s with cond := .v, halted := true, haltReason := .arithFault }) ∧
    (-2 ^ 31 ≤ t ∧ t ≤ 2 ^ 31 - 1 → ∃ c u, SignIs t c ∧ exec i s = .next u ∧
      WroteRegister s u f.target t c) := by
  refine ⟨fun outside => ?faults, fun inside => ?writes⟩
  case faults =>
    exact exec_arith_of_overflow hi hp (ha.trans (checkedResult_of_outOfRange outside))
  case writes =>
    have result := ha.trans (checkedResult_of_inRange inside)
    refine ⟨flagOf t, writeResult f t (executedState s t), signIs_flagOf t, ?_,
      wroteRegister_writeResult f s ((fitsWord_iff t).2 inside)⟩
    rw [exec_arith hi, predicated_of_result _ hp result]

end Arith

/-- Settles O18: the sum is the exact result that the ALU range-checks for ADD. -/
theorem addWritesTheSumOrFaults : Obligations.AddWritesTheSumOrFaults := by
  refine ⟨fun w hop => decode_of_opcode_toNat hop rfl, fun f s t hp ht => ?_⟩
  subst ht
  exact exec_arith_writes_or_faults (.inl rfl) hp (alu_add _ _)

/-- Settles O19: the difference is the exact result that the ALU range-checks for SUB. -/
theorem subWritesTheDifferenceOrFaults : Obligations.SubWritesTheDifferenceOrFaults := by
  refine ⟨fun w hop => decode_of_opcode_toNat hop rfl, fun f s t hp ht => ?_⟩
  subst ht
  exact exec_arith_writes_or_faults (.inr (.inl rfl)) hp (alu_sub _ _)

/-- Settles O20: the product is the exact result that the ALU range-checks for MUL. -/
theorem mulWritesTheProductOrFaults : Obligations.MulWritesTheProductOrFaults := by
  refine ⟨fun w hop => decode_of_opcode_toNat hop rfl, fun f s t hp ht => ?_⟩
  subst ht
  exact exec_arith_writes_or_faults (.inr (.inr (.inl rfl))) hp (alu_mul _ _)

/-- Settles O21: a divisor of zero by the ALU's own test; else the floor quotient is the exact
result that the ALU range-checks, and as the dividend is in range it can only be too large. -/
theorem divWritesTheFloorOrFaults : Obligations.DivWritesTheFloorOrFaults := by
  refine ⟨fun w hop => decode_of_opcode_toNat hop rfl, fun f s b t hp hb => ?_⟩
  subst hb
  have isArith : Instr.div f = .add f ∨ Instr.div f = .sub f ∨ Instr.div f = .mul f ∨
      Instr.div f = .div f := .inr (.inr (.inr rfl))
  refine ⟨fun divisorZero => ?byZero, fun hq => ?byNonzero⟩
  case byZero =>
    have ha : alu opDiv (operand1 f s) (operand2 f s) = (0, .v) := by
      rw [operand2, divisorZero, alu_div_zero]
    exact exec_arith_of_overflow isArith hp ha
  case byNonzero =>
    have dividendInRange := (fitsWord_iff _).1 (fitsWord_sint (s.readReg f.src1))
    obtain ⟨faults, writes⟩ :=
      exec_arith_writes_or_faults isArith hp (alu_div_of_isFloorQuotient hq)
    exact ⟨fun tooLarge => faults (.inr tooLarge),
      fun fits => writes ⟨hq.lower_bound dividendInRange, fits⟩⟩

end Sys2Proof.Machine
end

section
/-! The memory instructions (42_load_store.md R161 to R164). They share the address computation and
its two faults, so each is settled by what it does at a valid address. -/

namespace Sys2Proof.Machine

/-- The write-back reads register 15 after the increment (R113), and any other as it was. -/
theorem readReg_advancePc_eq_ite (s : State) (i : RegIndex) :
    s.advancePc.readReg i = if i = 15 then s.pc + 1 else s.readReg i := by
  split
  case isTrue hpc => rw [hpc, readReg_pc, advancePc_pc]
  case isFalse hpc => exact readReg_advancePc s hpc

/-- A register write neither reads nor writes the condition. -/
theorem writeReg_setCond (s : State) (c : Cond) (i : RegIndex) (v : Word) :
    (s.setCond c).writeReg i v = (s.writeReg i v).setCond c := by
  unfold State.writeReg
  split <;> [rfl; split <;> rfl]

theorem WroteRegister.setCond {s t : State} {i : RegIndex} {r : Int} {c : Cond}
    (h : WroteRegister s t i r c) (c' : Cond) : WroteRegister s (t.setCond c') i r c' :=
  { h with cond := rfl }

/-- The write-back of a LOAD is that of an arithmetic result, but for the condition, which is the
sign of the address `ea` and not that of the value `v` (R163). -/
theorem wroteRegister_loaded (f : Fields) (s : State) (ea : Int) (v : Word) :
    WroteRegister s ((executedState s ea).writeReg f.target v) f.target (sint v) (flagOf ea) := by
  have h := (wroteRegister_writeResult f s (fitsWord_sint v)).setCond (flagOf ea)
  rwa [writeResult, bits32_sint, ← writeReg_setCond] at h

/-- The write-back of a STORE at a valid address: one cell of memory, and no register. -/
theorem wroteCell_stored {s : State} {ea : Int} (v : Word) (hwf : s.mem.wf = true) (hea : 0 ≤ ea) :
    WroteCell s { executedState s ea with mem := s.mem.setCell ea.toNat v } ea v (flagOf ea) where
  written := cellAt_setCell_same v hwf
  others a ha := cellAt_setCell_other s.mem v (by omega)
  size := rfl
  pc_next := rfl
  regs _ hpc := readReg_advancePc s hpc
  cond := rfl
  latch := ⟨rfl, rfl⟩
  records := rfl

theorem loadAccess_of_inRange {f : Fields} {ea : Int} {s : State}
    (inside : s.mem.inRange ea = true) :
    loadAccess f ea s = s.writeReg f.target (s.mem.cellAt ea.toNat) :=
  ((loadAccess_cases f ea s).resolve_right (by simp [inside])).2

theorem loadAccess_of_not_inRange {f : Fields} {ea : Int} {s : State}
    (outside : ¬ s.mem.inRange ea = true) : loadAccess f ea s = s.raise .memFault :=
  ((loadAccess_cases f ea s).resolve_left fun h => outside h.1).2

theorem storeAccess_of_inRange {f : Fields} {ea : Int} {s : State}
    (inside : s.mem.inRange ea = true) :
    storeAccess f ea s = { s with mem := s.mem.setCell ea.toNat (s.readReg f.target) } :=
  ((storeAccess_cases f ea s).resolve_right (by simp [inside])).2

theorem storeAccess_of_not_inRange {f : Fields} {ea : Int} {s : State}
    (outside : ¬ s.mem.inRange ea = true) : storeAccess f ea s = s.raise .memFault :=
  ((storeAccess_cases f ea s).resolve_left fun h => outside h.1).2

section Access
variable {i : Instr} {f : Fields} {s : State} (hi : i = .load f ∨ i = .store f)
  (hp : predicateAdmits s.cond f.pred = true)
include hi hp

/-- R164: an address that no register can hold halts before the program counter moves. -/
theorem exec_access_of_outOfRange
    (overflow : effectiveAddress f s < -2 ^ 31 ∨ 2 ^ 31 - 1 < effectiveAddress f s) :
    exec i s = .next { s with cond := .v, halted := true, haltReason := .arithFault } := by
  have ha : checkedResult (operand1 f s + operand2 f s) = (0, .v) :=
    checkedResult_of_outOfRange overflow
  rcases hi with rfl | rfl
  · exact congrArg _ (predicated_of_overflow (op := opLoad) _ hp ha)
  · exact congrArg _ (predicated_of_overflow (op := opStore) _ hp ha)

/-- R164: an address outside memory halts after the condition and the program counter are
updated. -/
theorem exec_access_of_not_inRange (hf : fitsWord (effectiveAddress f s) = true)
    (outside : ¬ s.mem.inRange (effectiveAddress f s) = true) :
    exec i s = .next { s with
      cond := flagOf (effectiveAddress f s), pc := s.pc + 1, halted := true,
      haltReason := .memFault } := by
  rcases hi with rfl | rfl
  · exact (exec_load_of_fits hp hf).trans (congrArg _ (loadAccess_of_not_inRange outside))
  · exact (exec_store_of_fits hp hf).trans (congrArg _ (storeAccess_of_not_inRange outside))

/-- The three ends of an executed LOAD or STORE: its two faults, and what `Completes` says of it at
a valid address with the condition the sign of the address. -/
theorem exec_access_completes_or_faults {Completes : Cond → Prop}
    (completes : fitsWord (effectiveAddress f s) = true →
      s.mem.inRange (effectiveAddress f s) = true → Completes (flagOf (effectiveAddress f s))) :
    (effectiveAddress f s < -2 ^ 31 ∨ 2 ^ 31 - 1 < effectiveAddress f s → exec i s =
      .next { s with cond := .v, halted := true, haltReason := .arithFault }) ∧
    (-2 ^ 31 ≤ effectiveAddress f s ∧ effectiveAddress f s ≤ 2 ^ 31 - 1 →
      ∃ c, SignIs (effectiveAddress f s) c ∧
        (effectiveAddress f s < 0 ∨ s.mem.size ≤ effectiveAddress f s → exec i s =
          .next { s with cond := c, pc := s.pc + 1, halted := true, haltReason := .memFault }) ∧
        (0 ≤ effectiveAddress f s ∧ effectiveAddress f s < s.mem.size → Completes c)) := by
  refine ⟨exec_access_of_outOfRange hi hp, fun fits => ?_⟩
  have hf := (fitsWord_iff _).2 fits
  refine ⟨_, signIs_flagOf _, fun outside => ?faults, fun inside => ?completes⟩
  case faults =>
    refine exec_access_of_not_inRange hi hp hf fun inside => ?_
    obtain ⟨hlo, hhi⟩ := (inRange_iff _ _).1 inside
    omega
  case completes => exact completes hf ((inRange_iff _ _).2 inside)

end Access

/-- Settles O24: at a valid address the cell's value is written as an arithmetic result is. -/
theorem loadReadsTheCellOrFaults : Obligations.LoadReadsTheCellOrFaults := by
  refine ⟨fun w hop => decode_of_opcode_toNat hop rfl, fun f s ea hp hea => ?_⟩
  obtain rfl : ea = effectiveAddress f s := hea
  refine exec_access_completes_or_faults (.inl rfl) hp fun hf inside => ?_
  exact ⟨_, (exec_load_of_fits hp hf).trans (congrArg _ (loadAccess_of_inRange inside)),
    wroteRegister_loaded f s _ _⟩

/-- Settles O25: at a valid address the cell is set to the register stored, which is read after the
increment of the program counter. -/
theorem storeWritesTheCellOrFaults : Obligations.StoreWritesTheCellOrFaults := by
  refine ⟨fun w hop => decode_of_opcode_toNat hop rfl, fun f s ea hp hwf hea => ?_⟩
  obtain rfl : ea = effectiveAddress f s := hea
  refine exec_access_completes_or_faults (.inr rfl) hp fun hf inside => ?_
  rw [← readReg_advancePc_eq_ite]
  exact ⟨_, (exec_store_of_fits hp hf).trans (congrArg _ (storeAccess_of_inRange inside)),
    wroteCell_stored _ hwf ((inRange_iff _ _).1 inside).1⟩

end Sys2Proof.Machine
end

section
/-! HALT (43_halt_and_illegal.md R175): the words that are one, and its effect. -/

namespace Sys2Proof.Machine

/-- HALT is recognised before the predicate test, so its effect has no case on its fields or on the
condition. -/
theorem exec_halt (f : Fields) (s : State) : exec (.halt f) s = .next (s.raise .haltInstr) := rfl

/-- Settles O34: a word below 2^26 has opcode 0, whatever its fields hold, and the effect
of HALT is to raise its halt. -/
theorem haltHaltsWhateverItsFields : Obligations.HaltHaltsWhateverItsFields := by
  refine ⟨fun w hw => ?decodes, exec_halt⟩
  case decodes =>
    have hop : w.toNat / 2 ^ 26 = opHalt.toNat := Nat.div_eq_of_lt hw
    exact decode_of_opcode_toNat hop rfl

end Sys2Proof.Machine
end

section
/-! What each way of halting leaves (60_exceptions.md R200): the halting ends of an instruction, and
those of a step. -/

namespace Sys2Proof.Machine

theorem inRange_eq_false_iff (m : Memory) (a : Int) :
    m.inRange a = false ↔ a < 0 ∨ m.size ≤ a := by
  rw [← Bool.not_eq_true, inRange_iff]
  omega

/-- The three halting ends of an instruction: HALT, an arithmetic fault, and a LOAD or STORE outside
memory. The other four ends of `exec_cases` leave the halt latch as it was. -/
theorem exec_halting_cases {i : Instr} {s t : State} (hrun : s.halted = false)
    (hexec : exec i s = .next t) (hhalt : t.halted = true) :
    (∃ f, i = .halt f ∧ t = s.raise .haltInstr) ∨
    ((∀ f, i ≠ .halt f) ∧ predicateAdmits s.cond i.fields.pred = true ∧
      (alu i.opcode (operand1 i.fields s) (operand2 i.fields s)).2 = .v ∧
      t = (s.setCond .v).raise .arithFault) ∨
    (∃ f, (i = .load f ∨ i = .store f) ∧ predicateAdmits s.cond f.pred = true ∧
      (effectiveAddress f s < 0 ∨ s.mem.size ≤ effectiveAddress f s) ∧
      t = (executedState s (effectiveAddress f s)).raise .memFault) := by
  rcases exec_cases i s with ⟨f, hi, halts⟩ | ⟨_, _, skips⟩ |
    ⟨notHalt, hp, overflow, faults⟩ | ⟨_, _, _, _, _, _, computes⟩ | ⟨_, _, _, _, _, loads⟩ |
    ⟨_, _, _, _, _, stores⟩ | ⟨f, isAccess, hp, _, outside, misses⟩
  · cases halts.symm.trans hexec
    exact .inl ⟨f, hi, rfl⟩
  · cases skips.symm.trans hexec
    simp [hrun] at hhalt
  · cases faults.symm.trans hexec
    exact .inr (.inl ⟨notHalt, hp, congrArg Prod.snd overflow, rfl⟩)
  · cases computes.symm.trans hexec
    simp [hrun] at hhalt
  · cases loads.symm.trans hexec
    simp [hrun] at hhalt
  · cases stores.symm.trans hexec
    simp [hrun] at hhalt
  · cases misses.symm.trans hexec
    exact .inr (.inr ⟨f, isAccess, hp, (inRange_eq_false_iff _ _).1 outside, rfl⟩)

/-- Settles O43: a step halts by its fetch, by an illegal word, or by one of the halting ends of its
instruction. The instruction starts from `s` with the record added, so its operands are those of `s`. -/
theorem haltingStepLeavesExactState : Obligations.HaltingStepLeavesExactState := by
  intro s t hstep hhalt
  rcases cycle_cases exec s with ⟨_, refuses⟩ | ⟨_, hfetch, fetchFaults⟩ |
    ⟨w, e, _, hfetch, hdecode, illegal⟩ | ⟨w, i, hrun, hfetch, hdecode, runs⟩
  · cases refuses.symm.trans hstep
  · cases fetchFaults.symm.trans hstep
    exact .inl ⟨hfetch, rfl⟩
  · cases illegal.symm.trans hstep
    exact .inr ⟨w, _, hfetch, rfl, .inr (.inl ⟨e, hdecode, rfl⟩)⟩
  · refine .inr ⟨w, _, hfetch, rfl, ?_⟩
    rcases exec_halting_cases (s := s.observe w) hrun (runs.symm.trans hstep) hhalt with
      ⟨f, rfl, left⟩ | ⟨notHalt, hp, overflow, left⟩ | ⟨f, isAccess, hp, outside, left⟩
    · exact .inl ⟨f, hdecode, left⟩
    · exact .inr (.inr (.inl ⟨i, hdecode, notHalt, hp, overflow, left⟩))
    · exact .inr (.inr (.inr ⟨i, f, _, hdecode, isAccess, hp, signIs_flagOf _, outside, left⟩))

end Sys2Proof.Machine
end

section
/-! The start event (70_reset_and_hazards.md R233): what it changes in a Halted core, and the first
step after it. -/

namespace Sys2Proof.Machine

theorem start_of_halted {s : State} (hhalt : s.halted = true) (a : Word) :
    s.start a = { s with pc := a, halted := false, haltReason := .running } :=
  if_pos hhalt

theorem start_of_running {s : State} (hrun : s.halted = false) (a : Word) : s.start a = s :=
  if_neg (ne_true_of_eq_false hrun)

/-- Settles O44: the two cases of the start event. It does not check its address, so that one outside
memory is found by the fetch of the first step (R102), whose halt overwrites the latch that the start
cleared. -/
theorem startEventMakesTheCoreRun : Obligations.StartEventMakesTheCoreRun := by
  intro s a
  refine ⟨?halted, ?running, ?outsideMemory⟩
  case halted => exact fun hhalt => congrArg _ (start_of_halted hhalt a)
  case running => exact fun hrun => congrArg _ (start_of_running hrun a)
  case outsideMemory =>
    intro hhalt outside
    rw [start_of_halted hhalt]
    exact (fetchReadsAtPcOrHalts _).2 rfl outside

end Sys2Proof.Machine
end

section
/-! The instructions as words (30_encoding.md R75, R79): the codec of the six fields, and the opcode,
which selects the instruction. -/

namespace Sys2Proof

/-- Encoding a well-formed instruction loses nothing, and its opcode selects it again. -/
theorem decode_encode {i : Instr} (hi : i.wellFormed = true) : decode (encode i) = .ok i := by
  have hfields : decodeWord (encode i) = ⟨i.opcode, i.fields⟩ := decodeWord_encodeWord hi
  rw [decode_eq_ok_iff, hfields]
  exact ⟨rfl, rfl⟩

theorem wellFormed_of_decode {w : Word} {i : Instr} (hdecode : decode w = .ok i) :
    i.wellFormed = true := by
  obtain ⟨_, hfields⟩ := (decode_eq_ok_iff w i).1 hdecode
  rw [Instr.wellFormed, hfields]
  exact offsetFits_sext10 _

theorem encode_of_decode {w : Word} {i : Instr} (hdecode : decode w = .ok i) : encode i = w := by
  obtain ⟨hopcode, hfields⟩ := (decode_eq_ok_iff w i).1 hdecode
  rw [encode, hopcode, hfields]
  exact encodeWord_decodeWord w

/-- Settles O9: both directions from the round trips of the six fields, the opcode of an instruction
being the one that selects it. -/
theorem instructionsRoundTrip : Obligations.InstructionsRoundTrip :=
  ⟨fun _ => decode_encode, fun _ _ hdecode =>
    ⟨wellFormed_of_decode hdecode, encode_of_decode hdecode⟩⟩

end Sys2Proof
end

section
/-! The ends of an instruction and of a step as relations: `exec_cases` and `cycle_cases` with a name
for each case, so that a fact about every instruction or every step is a proof by cases on one
hypothesis. -/

namespace Sys2Proof.Machine

/-- `ExecEnd s i t`: the meaning of `i`, run in `s`, ends in `t`. -/
inductive ExecEnd (s : State) : Instr → State → Prop where
  | halts (f : Fields) : ExecEnd s (.halt f) (s.raise .haltInstr)
  | skips {i : Instr} (notHalt : ∀ f, i ≠ .halt f)
      (excluded : predicateAdmits s.cond i.fields.pred = false) : ExecEnd s i s.advancePc
  | overflows {i : Instr} (notHalt : ∀ f, i ≠ .halt f)
      (admitted : predicateAdmits s.cond i.fields.pred = true)
      (result : alu i.opcode (operand1 i.fields s) (operand2 i.fields s) = (0, .v)) :
      ExecEnd s i ((s.setCond .v).raise .arithFault)
  | computes {i : Instr} {r : Int} (arith : isAlu i.opcode = true)
      (admitted : predicateAdmits s.cond i.fields.pred = true) (fits : fitsWord r = true)
      (result : alu i.opcode (operand1 i.fields s) (operand2 i.fields s) = (r, flagOf r)) :
      ExecEnd s i ((executedState s r).writeReg i.fields.target (bits32 r))
  | loads {f : Fields} (admitted : predicateAdmits s.cond f.pred = true)
      (fits : fitsWord (effectiveAddress f s) = true)
      (inside : s.mem.inRange (effectiveAddress f s) = true) :
      ExecEnd s (.load f) ((executedState s (effectiveAddress f s)).writeReg f.target
        (s.mem.cellAt (effectiveAddress f s).toNat))
  | stores {f : Fields} (admitted : predicateAdmits s.cond f.pred = true)
      (fits : fitsWord (effectiveAddress f s) = true)
      (inside : s.mem.inRange (effectiveAddress f s) = true) :
      ExecEnd s (.store f) { executedState s (effectiveAddress f s) with
        mem := s.mem.setCell (effectiveAddress f s).toNat (s.advancePc.readReg f.target) }
  | misses {i : Instr} (access : isLoad i.opcode = true ∨ isStore i.opcode = true)
      (admitted : predicateAdmits s.cond i.fields.pred = true)
      (fits : fitsWord (effectiveAddress i.fields s) = true)
      (outside : s.mem.inRange (effectiveAddress i.fields s) = false) :
      ExecEnd s i ((executedState s (effectiveAddress i.fields s)).raise .memFault)

/-- `exec` has no other ends. -/
theorem execEnd_of_exec {i : Instr} {s t : State} (hexec : exec i s = .next t) :
    ExecEnd s i t := by
  rcases exec_cases i s with ⟨f, rfl, halts⟩ | ⟨notHalt, hp, skips⟩ |
    ⟨notHalt, hp, overflow, faults⟩ | ⟨f, r, arith, hp, hr, result, computes⟩ |
    ⟨f, rfl, hp, hf, inside, loads⟩ | ⟨f, rfl, hp, hf, inside, stores⟩ |
    ⟨f, access, hp, hf, outside, misses⟩
  · cases halts.symm.trans hexec
    exact .halts f
  · cases skips.symm.trans hexec
    exact .skips notHalt hp
  · cases faults.symm.trans hexec
    exact .overflows notHalt hp overflow
  · cases computes.symm.trans hexec
    rcases arith with rfl | rfl | rfl | rfl <;> exact .computes rfl hp hr result
  · cases loads.symm.trans hexec
    exact .loads hp hf inside
  · cases stores.symm.trans hexec
    exact .stores hp hf inside
  · cases misses.symm.trans hexec
    rcases access with rfl | rfl
    · exact .misses (.inl rfl) hp hf outside
    · exact .misses (.inr rfl) hp hf outside

/-- `StepCase s t`: a step of the Running state `s` ends in `t`. -/
inductive StepCase (s : State) : State → Prop where
  | fetchFaults (running : s.halted = false) (fetch : s.fetch = none) :
      StepCase s (s.raise .memFault)
  | illegal {w : Word} {e : DecodeError} (running : s.halted = false) (fetch : s.fetch = some w)
      (decoded : decode w = .error e) : StepCase s (takeIllegalOpcode (s.observe w))
  | runs {w : Word} {i : Instr} {t : State} (running : s.halted = false)
      (fetch : s.fetch = some w) (decoded : decode w = .ok i)
      (ends : ExecEnd (s.observe w) i t) : StepCase s t

/-- `step` has no other ends. -/
theorem stepCase_of_step {s t : State} (hstep : step s = .next t) : StepCase s t := by
  rcases cycle_cases exec s with ⟨_, refuses⟩ | ⟨hrun, hfetch, faults⟩ |
    ⟨w, e, hrun, hfetch, hdecode, illegal⟩ | ⟨w, i, hrun, hfetch, hdecode, runs⟩
  · cases refuses.symm.trans hstep
  · cases faults.symm.trans hstep
    exact .fetchFaults hrun hfetch
  · cases illegal.symm.trans hstep
    exact .illegal hrun hfetch hdecode
  · exact .runs hrun hfetch hdecode (execEnd_of_exec (runs.symm.trans hstep))

end Sys2Proof.Machine
end

section
/-! What an instruction leaves unchanged, read off its ends. -/

namespace Sys2Proof.Machine

namespace ExecEnd
variable {s t : State} {i : Instr}

/-- The record is put on the port before the instruction runs (R103), which adds none. -/
theorem trace_eq (h : ExecEnd s i t) : t.trace = s.trace := by
  cases h with
  | computes | loads => exact writeReg_trace ..
  | halts | skips | overflows | stores | misses => rfl

/-- The memory that an instruction leaves is the old one, or the old one with one cell set by an
executed STORE. -/
theorem mem_cases (h : ExecEnd s i t) :
    t.mem = s.mem ∨ ∃ f, i = .store f ∧ predicateAdmits s.cond f.pred = true ∧
      s.mem.inRange (effectiveAddress f s) = true ∧
      t.mem = s.mem.setCell (effectiveAddress f s).toNat (s.advancePc.readReg f.target) := by
  cases h with
  | computes | loads => exact .inl (writeReg_mem ..)
  | halts | skips | overflows | misses => exact .inl rfl
  | stores admitted _ inside => exact .inr ⟨_, rfl, admitted, inside, rfl⟩

theorem mem_size_eq (h : ExecEnd s i t) : t.mem.size = s.mem.size := by
  rcases h.mem_cases with unchanged | ⟨_, _, _, _, stored⟩
  · rw [unchanged]
  · rw [stored, setCell_size]

end ExecEnd

theorem StepCase.mem_size_eq {s t : State} (h : StepCase s t) : t.mem.size = s.mem.size := by
  cases h with
  | fetchFaults | illegal => rfl
  | runs _ _ _ ends => exact ends.mem_size_eq

end Sys2Proof.Machine
end

section
/-! The invariant (10_state.md R30, R31; 20_memory.md R52; 60_exceptions.md R200): each operation on
the state keeps it, so each instruction, each step and each event does. -/

namespace Sys2Proof.Machine

namespace State.Inv

theorem afterReset {m : Memory} {tr : List Observation} (hwf : m.wf = true)
    (faithful : ∀ r ∈ tr, m.inRange (sint r.addr) = true ∧ r.decoded = decodeWord r.word) :
    (State.afterReset m tr).Inv where
  mem_wf := hwf
  latch_agrees := by simp
  arithFault_leaves_v := by simp
  illegalOpcode_leaves_v := by simp
  trace_faithful := faithful

variable {s : State}

theorem haltReason_of_running (h : s.Inv) (hrun : s.halted = false) : s.haltReason = .running :=
  h.latch_agrees.1 hrun

/-- Nothing in the invariant speaks of the program counter. -/
theorem advancePc (h : s.Inv) : s.advancePc.Inv where
  mem_wf := h.mem_wf
  latch_agrees := h.latch_agrees
  arithFault_leaves_v := h.arithFault_leaves_v
  illegalOpcode_leaves_v := h.illegalOpcode_leaves_v
  trace_faithful := h.trace_faithful

/-- Nor of the registers. -/
theorem writeReg (h : s.Inv) (i : RegIndex) (v : Word) : (s.writeReg i v).Inv where
  mem_wf := by simpa using h.mem_wf
  latch_agrees := by simpa using h.latch_agrees
  arithFault_leaves_v := by simpa using h.arithFault_leaves_v
  illegalOpcode_leaves_v := by simpa using h.illegalOpcode_leaves_v
  trace_faithful := by simpa using h.trace_faithful

/-- While the core is Running the condition is free. -/
theorem setCond (h : s.Inv) (hrun : s.halted = false) (c : Cond) : (s.setCond c).Inv where
  mem_wf := h.mem_wf
  latch_agrees := h.latch_agrees
  arithFault_leaves_v := by simp [h.haltReason_of_running hrun]
  illegalOpcode_leaves_v := by simp [h.haltReason_of_running hrun]
  trace_faithful := h.trace_faithful

theorem executedState (h : s.Inv) (hrun : s.halted = false) (r : Int) :
    (executedState s r).Inv :=
  (h.setCond hrun _).advancePc

/-- A memory may be replaced by one of its size, since a record is checked against the size only. -/
theorem setMem (h : s.Inv) {m : Memory} (hwf : m.wf = true) (hsize : m.size = s.mem.size) :
    State.Inv { s with mem := m } where
  mem_wf := hwf
  latch_agrees := h.latch_agrees
  arithFault_leaves_v := h.arithFault_leaves_v
  illegalOpcode_leaves_v := h.illegalOpcode_leaves_v
  trace_faithful := by
    simpa only [Memory.inRange, hsize] using h.trace_faithful

theorem raise (h : s.Inv) {r : HaltReason} (notRunning : r ≠ .running)
    (leavesV : r = .arithFault ∨ r = .illegalOpcode → s.cond = .v) : (s.raise r).Inv where
  mem_wf := h.mem_wf
  latch_agrees := by simp [notRunning]
  arithFault_leaves_v := fun hr => leavesV (.inl hr)
  illegalOpcode_leaves_v := fun hr => leavesV (.inr hr)
  trace_faithful := h.trace_faithful

/-- The record of a successful fetch is a faithful one. -/
theorem observe (h : s.Inv) {w : Word} (hfetch : s.fetch = some w) : (s.observe w).Inv where
  mem_wf := h.mem_wf
  latch_agrees := h.latch_agrees
  arithFault_leaves_v := h.arithFault_leaves_v
  illegalOpcode_leaves_v := h.illegalOpcode_leaves_v
  trace_faithful r hr := by
    rcases List.mem_append.1 hr with old | new
    · exact h.trace_faithful r old
    · obtain rfl := List.mem_singleton.1 new
      rcases fetch_cases s with ⟨inside, _⟩ | ⟨_, faults⟩
      · exact ⟨inside, rfl⟩
      · cases faults.symm.trans hfetch

theorem start (h : s.Inv) (a : Word) : (s.start a).Inv := by
  cases hhalted : s.halted with
  | false => rwa [start_of_running hhalted]
  | true =>
    rw [start_of_halted hhalted]
    exact ⟨h.mem_wf, by simp, by simp, by simp, h.trace_faithful⟩

/-- The reset values meet the invariant over the memory and the records that reset keeps. -/
theorem hardwareReset (h : s.Inv) : s.hardwareReset.Inv :=
  afterReset h.mem_wf h.trace_faithful

end State.Inv

theorem ExecEnd.inv {s t : State} {i : Instr} (h : ExecEnd s i t) (hs : s.Inv)
    (hrun : s.halted = false) : t.Inv := by
  cases h with
  | halts => exact hs.raise (by decide) (by simp)
  | skips => exact hs.advancePc
  | overflows => exact (hs.setCond hrun .v).raise (by decide) fun _ => rfl
  | computes | loads => exact (hs.executedState hrun _).writeReg _ _
  | stores _ _ inside =>
    obtain ⟨hlo, hhi⟩ := (inRange_iff _ _).1 inside
    exact (hs.executedState hrun _).setMem (setCell_wf _ hs.mem_wf (by omega)) rfl
  | misses => exact (hs.executedState hrun _).raise (by decide) (by simp)

theorem StepCase.inv {s t : State} (h : StepCase s t) (hs : s.Inv) : t.Inv := by
  cases h with
  | fetchFaults => exact hs.raise (by decide) (by simp)
  | illegal running fetch =>
    exact ((hs.observe fetch).setCond running .v).raise (by decide) fun _ => rfl
  | runs running fetch _ ends => exact ends.inv (hs.observe fetch) running

/-- Settles O47: the invariant is kept by each operation on the state that an end of a step is made
of; a step is taken while Running, where the condition is free. -/
theorem stepKeepsTheInvariant : Obligations.StepKeepsTheInvariant :=
  fun _ _ hs hstep => (stepCase_of_step hstep).inv hs

/-- The only next state of a host write: the core is Halted and the address is valid. -/
theorem hostWriteCell_next {s t : State} {a : Int} {w : Word}
    (h : hostWriteCell a w s = .next t) :
    ∃ m, s.mem.write a w = some m ∧ t = { s with mem := m } := by
  unfold hostWriteCell at h
  split at h
  case isFalse => cases h
  case isTrue =>
    split at h
    case h_1 m hwrite =>
      cases h
      exact ⟨m, hwrite, rfl⟩
    case h_2 => cases h

theorem write_size {m m' : Memory} {a : Int} {v : Word} (hw : m.write a v = some m') :
    m'.size = m.size := by
  rcases write_cases m a v with ⟨_, writes⟩ | ⟨_, fails⟩
  · cases writes.symm.trans hw
    rfl
  · cases fails.symm.trans hw

theorem react_inv {e : Event} {s t : State} (hs : s.Inv) (h : react e s = .next t) : t.Inv := by
  cases e with
  | coreStep => exact stepKeepsTheInvariant s t hs h
  | hardwareReset =>
    cases h
    exact hs.hardwareReset
  | start a =>
    cases h
    exact hs.start a
  | hostWrite a w =>
    obtain ⟨m, hwrite, rfl⟩ := hostWriteCell_next h
    exact hs.setMem (write_wf hs.mem_wf hwrite) (write_size hwrite)

/-- Settles O49, by induction on the events since power-on. -/
theorem reachableStatesMeetTheInvariant : Obligations.ReachableStatesMeetTheInvariant := by
  intro s hs
  induction hs with
  | powerOn mem hwf => exact .afterReset hwf (by simp)
  | event e s t _ ht ih => exact react_inv ih ht

/-- Settles O48: a cleared memory of the largest admitted size is in canonical form. -/
theorem resetMeetsTheInvariant : Obligations.ResetMeetsTheInvariant :=
  .afterReset reset_mem_wf (by simp)

theorem start_mem (s : State) (a : Word) : (s.start a).mem = s.mem := by
  unfold State.start
  split <;> rfl

/-- Settles O33: the two events that touch memory, a step and a host write, set cells and keep the
size. -/
theorem memorySizeNeverChanges : Obligations.MemorySizeNeverChanges := by
  intro e s t h
  cases e with
  | coreStep => exact (stepCase_of_step h).mem_size_eq
  | hardwareReset =>
    cases h
    rfl
  | start a =>
    cases h
    rw [start_mem]
  | hostWrite a w =>
    obtain ⟨m, hwrite, rfl⟩ := hostWriteCell_next h
    exact write_size hwrite

end Sys2Proof.Machine
end

section
/-! The observation port (40_step_and_predication.md R103; 60_exceptions.md R213): what a step puts on
it, and that nothing reads it. -/

namespace Sys2Proof.Machine

/-- A step after a fetch fault adds nothing, any other adds the record of its fetch, since no
instruction touches the port. -/
theorem StepCase.trace_cases {s t : State} (h : StepCase s t) :
    (s.fetch = none ∧ t.trace = s.trace) ∨
      ∃ w, s.fetch = some w ∧ t.trace = s.trace ++ [observation s w] := by
  cases h with
  | fetchFaults _ fetch => exact .inl ⟨fetch, rfl⟩
  | illegal _ fetch => exact .inr ⟨_, fetch, rfl⟩
  | runs _ fetch _ ends => exact .inr ⟨_, fetch, ends.trace_eq⟩

/-- Settles O5: the two cases of the fetch. -/
theorem oneRecordPerSuccessfulFetch : Obligations.OneRecordPerSuccessfulFetch := by
  intro s t hstep
  rcases (stepCase_of_step hstep).trace_cases with ⟨hnone, kept⟩ | ⟨w, hsome, added⟩
  · simp [hnone, kept]
  · simp [hsome, added, observation]

/-- `s` with another history of the observation port. -/
def State.withTrace (s : State) (tr : List Observation) : State := { s with trace := tr }

section withTrace
variable (s : State) (tr : List Observation)

theorem writeReg_withTrace (i : RegIndex) (v : Word) :
    (s.withTrace tr).writeReg i v = (s.writeReg i v).withTrace tr := by
  unfold State.writeReg
  split <;> [rfl; split <;> rfl]

/-- An instruction does not see the history if its write-back does not. -/
theorem predicated_withTrace (op : BitVec 6) (f : Fields) {wb : Int → State → State}
    (hwb : ∀ r u, wb r (u.withTrace tr) = (wb r u).withTrace tr) :
    predicated op f wb (s.withTrace tr) = (predicated op f wb s).withTrace tr := by
  rcases predicated_cases op f wb s with ⟨hp, skips⟩ | ⟨hp, ha, faults⟩ | ⟨r, hp, _, ha, executes⟩
  · rw [skips]
    exact predicated_of_excluded (s := s.withTrace tr) op wb hp
  · rw [faults]
    exact predicated_of_overflow (s := s.withTrace tr) wb hp ha
  · rw [executes, ← hwb]
    exact predicated_of_result (s := s.withTrace tr) wb hp ha

theorem loadAccess_withTrace (f : Fields) (ea : Int) :
    loadAccess f ea (s.withTrace tr) = (loadAccess f ea s).withTrace tr := by
  rcases loadAccess_cases f ea s with ⟨inside, loads⟩ | ⟨outside, misses⟩
  · rw [loads, ← writeReg_withTrace]
    exact loadAccess_of_inRange (s := s.withTrace tr) inside
  · rw [misses]
    exact loadAccess_of_not_inRange (s := s.withTrace tr) (ne_true_of_eq_false outside)

theorem storeAccess_withTrace (f : Fields) (ea : Int) :
    storeAccess f ea (s.withTrace tr) = (storeAccess f ea s).withTrace tr := by
  rcases storeAccess_cases f ea s with ⟨inside, stores⟩ | ⟨outside, misses⟩
  · rw [stores]
    exact storeAccess_of_inRange (s := s.withTrace tr) inside
  · rw [misses]
    exact storeAccess_of_not_inRange (s := s.withTrace tr) (ne_true_of_eq_false outside)

theorem writeResult_withTrace (f : Fields) (r : Int) :
    writeResult f r (s.withTrace tr) = (writeResult f r s).withTrace tr :=
  writeReg_withTrace s tr _ _

end withTrace

theorem exec_withTrace (tr : List Observation) {i : Instr} {s t : State}
    (hexec : exec i s = .next t) :
    exec i (s.withTrace tr) = .next (t.withTrace tr) := by
  cases i with
  | halt f =>
    cases hexec
    rfl
  | load f =>
    cases hexec
    exact congrArg _ (predicated_withTrace s tr _ f fun r u => loadAccess_withTrace u tr f r)
  | store f =>
    cases hexec
    exact congrArg _ (predicated_withTrace s tr _ f fun r u => storeAccess_withTrace u tr f r)
  | add f | sub f | mul f | div f =>
    cases hexec
    exact congrArg _ (predicated_withTrace s tr _ f fun r u => writeResult_withTrace u tr f r)

/-- A Running core that fetches an instruction records it and runs its meaning. -/
theorem step_of_decode_ok {s : State} {w : Word} {i : Instr} (hrun : s.halted = false)
    (hfetch : s.fetch = some w) (hdecode : decode w = .ok i) :
    step s = exec i (s.observe w) := by
  simp [step, cycle, hrun, hfetch, hdecode]

/-- Settles O1: the record is written out in the statement. -/
theorem stepRunsDecodedInstruction : Obligations.StepRunsDecodedInstruction :=
  fun _ _ _ => step_of_decode_ok

/-- Settles O6: the fetch and the record do not depend on the port, and the instruction takes any
history along. -/
theorem observationPortIsInert : Obligations.ObservationPortIsInert := by
  intro s t other hstep
  rcases cycle_cases exec s with ⟨_, refuses⟩ | ⟨hrun, hfetch, faults⟩ |
    ⟨w, e, hrun, hfetch, hdecode, illegal⟩ | ⟨w, i, hrun, hfetch, hdecode, runs⟩
  · cases refuses.symm.trans hstep
  · cases faults.symm.trans hstep
    refine ⟨[], (List.append_nil _).symm, ?_⟩
    rw [List.append_nil]
    exact step_of_fetch_none (s := s.withTrace other) hrun hfetch
  · cases illegal.symm.trans hstep
    exact ⟨[observation s w], rfl,
      step_of_decode_error (s := s.withTrace other) hrun hfetch hdecode⟩
  · have hexec : exec i (s.observe w) = .next t := runs.symm.trans hstep
    exact ⟨[observation s w], (execEnd_of_exec hexec).trace_eq,
      (step_of_decode_ok (s := s.withTrace other) hrun hfetch hdecode).trans
        (exec_withTrace (s := s.observe w) (other ++ [observation s w]) hexec)⟩

end Sys2Proof.Machine
end

section
/-! The predicate test (40_step_and_predication.md R105) as a read of one mask bit, and the words
that a condition V skips (70_reset_and_hazards.md R235). -/

namespace Sys2Proof

theorem opcode_toNat_of_decode {w : Word} {i : Instr} (hdecode : decode w = .ok i) :
    i.opcode.toNat = w.toNat / 2 ^ 26 := by
  obtain ⟨hopcode, _⟩ := (decode_eq_ok_iff w i).1 hdecode
  rw [hopcode, decodeWord_opcode_toNat]

/-- The opcodes 1, 2, 3, 5, 6 and 7 are those of the instructions other than HALT. -/
theorem decode_ok_of_predicated_opcode {w : Word} (hop : w.toNat / 2 ^ 26 ∈ [1, 2, 3, 5, 6, 7]) :
    ∃ i, decode w = .ok i ∧ ∀ f, i ≠ .halt f := by
  simp only [List.mem_cons, List.not_mem_nil, or_false] at hop
  cases hdecode : decode w with
  | error e =>
    have := (decode_error_iff_opcode w).1 ⟨e, hdecode⟩
    omega
  | ok i =>
    refine ⟨i, rfl, ?_⟩
    rintro f rfl
    have hzero : 0 = w.toNat / 2 ^ 26 := opcode_toNat_of_decode hdecode
    omega

end Sys2Proof

namespace Sys2Proof.Machine

/-- The position of a condition in a predicate mask (R76). -/
def condBit : Cond → Nat
  | .m => 0
  | .z => 1
  | .p => 2
  | .v => 3

theorem condCode_eq_twoPow (c : Cond) : condCode c = BitVec.twoPow 4 (condBit c) := by
  cases c <;> rfl

/-- R105: the mask has to hold the one bit of the condition. -/
theorem predicateAdmits_eq_getLsbD (c : Cond) (pred : PredMask) :
    predicateAdmits c pred = pred.getLsbD (condBit c) := by
  have hcode : condCode c ≠ 0 := by cases c <;> decide
  rw [predicateAdmits, BitVec.and_comm]
  rw [condCode_eq_twoPow] at hcode ⊢
  rw [BitVec.and_twoPow]
  cases pred.getLsbD (condBit c) with
  | false => simp
  | true => simpa using hcode

theorem predicateAdmits_always_iff (c : Cond) : predicateAdmits c maskAlways = true ↔ c ≠ .v := by
  rw [predicateAdmits_eq_getLsbD]
  cases c <;> decide

theorem predicateAdmits_never (c : Cond) : predicateAdmits c maskNever = false := by
  rw [predicateAdmits_eq_getLsbD]
  exact BitVec.getLsbD_zero

/-- Settles O12: each condition has its own bit of the mask. -/
theorem predicateTestFollowsTruthTable : Obligations.PredicateTestFollowsTruthTable :=
  ⟨fun pred => ⟨predicateAdmits_eq_getLsbD .m pred, predicateAdmits_eq_getLsbD .z pred,
      predicateAdmits_eq_getLsbD .p pred, predicateAdmits_eq_getLsbD .v pred⟩,
    fun c => ⟨predicateAdmits_always_iff c, predicateAdmits_never c⟩⟩

/-- Settles O14: the word is an instruction other than HALT, and its mask does not hold V. -/
theorem alwaysIsSkippedWhileConditionIsV : Obligations.AlwaysIsSkippedWhileConditionIsV := by
  intro s w hrun hv hfetch hop hpred
  obtain ⟨i, hdecode, notHalt⟩ := decode_ok_of_predicated_opcode hop
  have always : i.fields.pred = maskAlways := by
    obtain ⟨_, hfields⟩ := (decode_eq_ok_iff w i).1 hdecode
    rw [hfields]
    exact BitVec.eq_of_toNat_eq ((decodeWord_pred_toNat w).trans hpred)
  have excluded : predicateAdmits (s.observe w).cond i.fields.pred = false := by
    rw [always, observe_cond, hv]
    rfl
  rw [step_of_decode_ok hrun hfetch hdecode, exec_of_excluded notHalt excluded]
  rfl

end Sys2Proof.Machine
end

section
/-! The ALU's range (41_alu_arithmetic.md R130, R132, R136). -/

namespace Sys2Proof.Machine

/-- Settles O16: the two answers of the ALU, a checked result or (0, V). -/
theorem aluResultFitsAndFlagIsItsSign : Obligations.AluResultFitsAndFlagIsItsSign := by
  intro op a b
  rcases alu_cases op a b with ⟨t, fits, result⟩ | overflow
  · rw [result]
    exact ⟨(fitsWord_iff t).1 fits, .inl (signIs_flagOf t)⟩
  · exact ⟨by rw [overflow]; decide, .inr overflow⟩

theorem isFloorQuotient_floordiv (a : Int) {b : Int} (hb : b ≠ 0) :
    IsFloorQuotient a b (floordiv a b) := by
  rcases lt_or_gt_of_ne hb with neg | pos
  · have floor := le_floordiv_iff_of_neg (a := a) neg
    exact .inr ⟨neg, (floor _).1 le_rfl, fun n => (floor n).2⟩
  · have floor := le_floordiv_iff_of_pos (a := a) pos
    exact .inl ⟨pos, (floor _).1 le_rfl, fun n => (floor n).2⟩

/-- The quotient of a register's value reaches 2^31 for one pair only. -/
theorem le_floordiv_iff_least_by_neg_one {a b : Int} (ha : -2 ^ 31 ≤ a ∧ a ≤ 2 ^ 31 - 1)
    (hb : b ≠ 0) : 2 ^ 31 ≤ floordiv a b ↔ a = -2 ^ 31 ∧ b = -1 := by
  rcases lt_or_gt_of_ne hb with neg | pos
  · rw [le_floordiv_iff_of_neg neg]
    omega
  · rw [le_floordiv_iff_of_pos pos]
    omega

theorem checkedResult_eq_v_iff (t : Int) :
    (checkedResult t).2 = .v ↔ t < -2 ^ 31 ∨ 2 ^ 31 ≤ t := by
  rcases checkedResult_cases t with ⟨fits, result⟩ | ⟨overflows, result⟩
  · have := (fitsWord_iff t).1 fits
    simp only [result, flagOf_ne_v, false_iff]
    omega
  · rw [← Bool.not_eq_true, fitsWord_iff] at overflows
    simp only [result, true_iff]
    omega

/-- Settles O17: the quotient cannot be too small, and it is too large for one pair only. -/
theorem divisionOverflowsForOnePairOnly : Obligations.DivisionOverflowsForOnePairOnly := by
  intro a b hlo hhi hb
  have bounded := (isFloorQuotient_floordiv a hb).lower_bound ⟨hlo, hhi⟩
  rw [alu_div, if_neg hb, checkedResult_eq_v_iff, or_iff_right (by omega),
    le_floordiv_iff_least_by_neg_one ⟨hlo, hhi⟩ hb]

end Sys2Proof.Machine
end

section
/-! The frames of the instructions (40_step_and_predication.md R101, R110; 42_load_store.md R164),
read off the ends of an instruction. -/

namespace Sys2Proof

theorem isAlu_eq_false_of_access {op : BitVec 6} (h : isLoad op = true ∨ isStore op = true) :
    isAlu op = false := by
  simp only [isLoad, isStore, decide_eq_true_eq] at h
  rcases h with rfl | rfl <;> rfl

/-- The four instructions of class `is_alu` (R92). -/
theorem isAlu_of_arith {i : Instr} {f : Fields}
    (hi : i = .add f ∨ i = .sub f ∨ i = .mul f ∨ i = .div f) :
    isAlu i.opcode = true ∧ i.fields = f := by
  rcases hi with rfl | rfl | rfl | rfl <;> exact ⟨rfl, rfl⟩

theorem not_halt_of_isAlu {i : Instr} (hi : isAlu i.opcode = true) (f : Fields) : i ≠ .halt f := by
  rintro rfl
  cases hi

theorem not_store_of_isAlu {i : Instr} (hi : isAlu i.opcode = true) (f : Fields) :
    i ≠ .store f := by
  rintro rfl
  cases hi

end Sys2Proof

namespace Sys2Proof.Machine

namespace ExecEnd
variable {s t : State} {i : Instr}

theorem mem_eq_of_not_store (h : ExecEnd s i t) (notStore : ∀ f, i ≠ .store f) :
    t.mem = s.mem :=
  h.mem_cases.resolve_right fun ⟨f, hf, _⟩ => notStore f hf

/-- No cell changes but the one at the effective address, whatever the instruction is. -/
theorem cellAt_other (h : ExecEnd s i t) {a : Nat} (ha : (a : Int) ≠ effectiveAddress i.fields s) :
    t.mem.cellAt a = s.mem.cellAt a := by
  rcases h.mem_cases with unchanged | ⟨f, rfl, _, inside, stored⟩
  · rw [unchanged]
  · have ha : (a : Int) ≠ effectiveAddress f s := ha
    obtain ⟨hlo, _⟩ := (inRange_iff _ _).1 inside
    rw [stored, cellAt_setCell_other _ _ (by omega)]

theorem mem_eq_of_excluded (h : ExecEnd s i t)
    (excluded : predicateAdmits s.cond i.fields.pred = false) : t.mem = s.mem := by
  rcases h.mem_cases with unchanged | ⟨f, rfl, admitted, _, _⟩
  · exact unchanged
  · cases excluded.symm.trans admitted

theorem readReg_other (h : ExecEnd s i t) {r : RegIndex} (hr : r ≠ i.fields.target)
    (hpc : r ≠ 15) : t.readReg r = s.readReg r := by
  cases h with
  | halts | overflows => rfl
  | skips | stores | misses => exact readReg_advancePc _ hpc
  | computes | loads =>
    exact (readReg_writeReg_other _ _ hr).trans (readReg_advancePc _ hpc)

/-- A STORE writes no register but the program counter. -/
theorem readReg_of_store {f : Fields} (h : ExecEnd s (.store f) t) {r : RegIndex}
    (hpc : r ≠ 15) : t.readReg r = s.readReg r := by
  cases h with
  | overflows => rfl
  | skips | stores | misses => exact readReg_advancePc _ hpc
  | computes arith => cases arith

/-- The condition that an instruction leaves: the ALU's flag if it is executed, else the old one. -/
theorem cond_eq (h : ExecEnd s i t) (notHalt : ∀ f, i ≠ .halt f) :
    t.cond = if predicateAdmits s.cond i.fields.pred = true then
      (alu i.opcode (operand1 i.fields s) (operand2 i.fields s)).2 else s.cond := by
  have address {f : Fields} (fits : fitsWord (effectiveAddress f s) = true) :
      flagOf (effectiveAddress f s) = (checkedResult (operand1 f s + operand2 f s)).2 := by
    rw [checkedResult_effectiveAddress fits]
  cases h with
  | halts f => exact absurd rfl (notHalt f)
  | skips _ excluded => exact (if_neg (ne_true_of_eq_false excluded)).symm
  | overflows _ admitted result => rw [if_pos admitted, result]; rfl
  | computes _ admitted _ result => rw [if_pos admitted, result, writeReg_cond]; rfl
  | loads admitted fits =>
    rw [writeReg_cond]
    exact (address fits).trans (if_pos admitted).symm
  | stores admitted fits => exact (address fits).trans (if_pos admitted).symm
  | misses access admitted fits =>
    rw [if_pos admitted]
    simp only [isLoad, isStore, decide_eq_true_eq] at access
    rcases access with hop | hop <;> rw [hop] <;> exact address fits

theorem cond_eq_of_excluded (h : ExecEnd s i t) (notHalt : ∀ f, i ≠ .halt f)
    (excluded : predicateAdmits s.cond i.fields.pred = false) : t.cond = s.cond :=
  (h.cond_eq notHalt).trans (if_neg (ne_true_of_eq_false excluded))

/-- Only the two faults touch the latch: an arithmetic fault with no register changed, and, of a LOAD
or STORE, a memory fault with none but the program counter changed. Neither changes memory. -/
theorem latch_cases (h : ExecEnd s i t) (notHalt : ∀ f, i ≠ .halt f) :
    (t.halted = s.halted ∧ t.haltReason = s.haltReason) ∨
    (t.halted = true ∧ t.haltReason = .arithFault ∧ t.mem = s.mem ∧
      ∀ r : RegIndex, t.readReg r = s.readReg r) ∨
    (t.halted = true ∧ t.haltReason = .memFault ∧ isAlu i.opcode = false ∧ t.mem = s.mem ∧
      ∀ r : RegIndex, r ≠ 15 → t.readReg r = s.readReg r) := by
  cases h with
  | halts f => exact absurd rfl (notHalt f)
  | skips | stores => exact .inl ⟨rfl, rfl⟩
  | computes | loads => exact .inl ⟨writeReg_halted .., writeReg_haltReason ..⟩
  | overflows => exact .inr (.inl ⟨rfl, rfl, rfl, fun _ => rfl⟩)
  | misses access =>
    exact .inr (.inr ⟨rfl, rfl, isAlu_eq_false_of_access access, rfl,
      fun _ hpc => readReg_advancePc _ hpc⟩)

end ExecEnd

/-- Settles O23: of the two faults, a memory fault is none of an arithmetic instruction. -/
theorem arithmeticFrame : Obligations.ArithmeticFrame := by
  intro i f s t hi hexec
  obtain ⟨arith, rfl⟩ := isAlu_of_arith hi
  have notHalt := not_halt_of_isAlu arith
  have h := execEnd_of_exec hexec
  refine ⟨fun r => h.readReg_other, h.mem_eq_of_not_store (not_store_of_isAlu arith), h.trace_eq,
    h.cond_eq_of_excluded notHalt, ?latch⟩
  case latch =>
    rcases h.latch_cases notHalt with kept | ⟨halted, reason, _, regs⟩ | ⟨_, _, notArith, _⟩
    · exact .inl kept
    · exact .inr ⟨halted, reason, regs⟩
    · cases notArith.symm.trans arith

/-- Settles O26: a LOAD has both faults, and neither writes its target. -/
theorem loadFrame : Obligations.LoadFrame := by
  intro f s t hexec
  have notHalt (g : Fields) : Instr.load f ≠ .halt g := Instr.noConfusion
  have notStore (g : Fields) : Instr.load f ≠ .store g := Instr.noConfusion
  have h := execEnd_of_exec hexec
  refine ⟨fun r => h.readReg_other, h.mem_eq_of_not_store notStore, h.trace_eq,
    h.cond_eq_of_excluded notHalt, ?latch⟩
  case latch =>
    rcases h.latch_cases notHalt with kept | ⟨halted, reason, _, regs⟩ |
      ⟨halted, reason, _, _, regs⟩
    · exact .inl kept
    · exact .inr ⟨halted, .inl reason, fun r _ => regs r⟩
    · exact .inr ⟨halted, .inr reason, regs⟩

/-- Settles O27: a STORE has both faults, and neither sets a cell. -/
theorem storeFrame : Obligations.StoreFrame := by
  intro f s t hexec
  have notHalt (g : Fields) : Instr.store f ≠ .halt g := Instr.noConfusion
  have h := execEnd_of_exec hexec
  refine ⟨fun r => h.readReg_of_store, fun a => h.cellAt_other, h.mem_size_eq, h.trace_eq,
    fun excluded => ⟨h.cond_eq_of_excluded notHalt excluded, h.mem_eq_of_excluded excluded⟩,
    ?latch⟩
  case latch =>
    rcases h.latch_cases notHalt with kept | ⟨halted, reason, mem, _⟩ | ⟨halted, reason, _, mem, _⟩
    · exact .inl kept
    · exact .inr ⟨halted, .inl reason, mem⟩
    · exact .inr ⟨halted, .inr reason, mem⟩

/-- Settles O28: the condition left is given by the old condition, the mask and the operands, and
none of them is read from memory. -/
theorem memoryContentsDoNotReachCondition : Obligations.MemoryContentsDoNotReachCondition := by
  intro i f s t t' m hi hexec hexec'
  have notHalt : ∀ g, i ≠ .halt g := by
    rcases hi with rfl | rfl <;> exact fun _ => Instr.noConfusion
  exact ((execEnd_of_exec hexec').cond_eq notHalt).trans
    ((execEnd_of_exec hexec).cond_eq notHalt).symm

end Sys2Proof.Machine
end

section
/-! Who writes the condition register in a step (10_state.md R29; 60_exceptions.md R210), and the
compare idiom that reads it (41_alu_arithmetic.md R141). -/

namespace Sys2Proof.Machine

/-- Of the ends of an instruction only an arithmetic fault sets V: every other flag is a sign. -/
theorem ExecEnd.arithFault_of_cond_v {s t : State} {i : Instr} (h : ExecEnd s i t)
    (hs : s.cond ≠ .v) (ht : t.cond = .v) : t.halted = true ∧ t.haltReason = .arithFault := by
  cases h with
  | halts | skips => exact absurd ht hs
  | overflows => exact ⟨rfl, rfl⟩
  | computes | loads => exact absurd ((writeReg_cond ..).symm.trans ht) (flagOf_ne_v _)
  | stores | misses => exact absurd ht (flagOf_ne_v _)

/-- Settles O41: V comes from an illegal word or from an arithmetic fault. -/
theorem conditionBecomesVOnlyByAFault : Obligations.ConditionBecomesVOnlyByAFault := by
  intro s t hs hstep ht
  cases stepCase_of_step hstep with
  | fetchFaults => exact absurd ht hs
  | illegal => exact ⟨rfl, .inr rfl⟩
  | runs _ _ _ ends =>
    obtain ⟨halted, reason⟩ := ends.arithFault_of_cond_v hs ht
    exact ⟨halted, .inl reason⟩

/-- Settles O40: HALT and a skipped instruction leave the condition, an executed one sets the ALU's
flag. -/
theorem conditionIsWrittenByTheAluOrAnIllegalWord :
    Obligations.ConditionIsWrittenByTheAluOrAnIllegalWord := by
  intro s t hstep changed
  cases stepCase_of_step hstep with
  | fetchFaults => exact absurd rfl changed
  | illegal _ fetch decoded => exact .inl ⟨_, _, fetch, decoded, rfl⟩
  | @runs w i _ _ fetch decoded ends =>
    have notHalt : ∀ f, i ≠ .halt f := by
      rintro f rfl
      cases ends with
      | halts => exact changed rfl
      | skips notHalt | overflows notHalt => exact notHalt f rfl
      | computes arith => cases arith
      | misses access => rcases access with h | h <;> cases h
    have admitted : predicateAdmits s.cond i.fields.pred = true := by
      by_contra excluded
      exact changed (ends.cond_eq_of_excluded notHalt (eq_false_of_ne_true excluded))
    exact .inr ⟨w, i, fetch, decoded, notHalt, admitted,
      (ends.cond_eq notHalt).trans (if_pos admitted)⟩

/-- Settles O22: SUB writes the difference to register 0, which drops it, and leaves its sign in the
condition. -/
theorem compareBySubtractionSetsCondition : Obligations.CompareBySubtractionSetsCondition := by
  intro f s hp htarget hoffset hlo hhi
  have hdiff : s.x f.src1 - s.x f.src2 = s.x f.src1 - (s.x f.src2 + f.offset) := by
    rw [hoffset, add_zero]
  obtain ⟨_, sub⟩ := subWritesTheDifferenceOrFaults
  obtain ⟨_, fits⟩ := sub f s _ hp hdiff
  obtain ⟨c, u, sign, hexec, wrote⟩ := fits ⟨hlo, hhi⟩
  refine ⟨u, hexec, fun i hpc => ?registers, ?condition⟩
  case registers =>
    by_cases hi : i = f.target
    · rw [hi, htarget, readReg_zero, readReg_zero]
    · exact wrote.others i hi hpc
  case condition =>
    rw [wrote.cond]
    rcases sign with ⟨rfl, neg⟩ | ⟨rfl, zero⟩ | ⟨rfl, pos⟩
    · exact ⟨fun _ => rfl, by omega, by omega⟩
    · exact ⟨by omega, fun _ => rfl, by omega⟩
    · exact ⟨by omega, by omega, fun _ => rfl⟩

end Sys2Proof.Machine
end

section
/-! LOAD and STORE where they complete: executed, at a valid address (42_load_store.md R161, R162). -/

namespace Sys2Proof.Machine

/-- An executed LOAD from a valid address that a register can hold, faults excluded (R161). -/
theorem exec_load_wroteRegister {f : Fields} {s : State}
    (hp : predicateAdmits s.cond f.pred = true) (hlo : 0 ≤ effectiveAddress f s)
    (hhi : effectiveAddress f s < s.mem.size) (hmax : effectiveAddress f s ≤ 2 ^ 31 - 1) :
    ∃ c u, exec (.load f) s = .next u ∧
      WroteRegister s u f.target (sint (s.mem.cellAt (effectiveAddress f s).toNat)) c := by
  obtain ⟨_, load⟩ := loadReadsTheCellOrFaults
  obtain ⟨_, fits⟩ := load f s (effectiveAddress f s) hp rfl
  obtain ⟨c, _, _, completes⟩ := fits ⟨by omega, hmax⟩
  exact ⟨c, completes ⟨hlo, hhi⟩⟩

/-- An executed STORE to a valid address, faults excluded (R162): in a memory of an admitted size
no valid address overflows a register. -/
theorem exec_store_wroteCell {f : Fields} {s : State} (hwf : s.mem.wf = true)
    (hp : predicateAdmits s.cond f.pred = true) (hlo : 0 ≤ effectiveAddress f s)
    (hhi : effectiveAddress f s < s.mem.size) :
    ∃ c u, exec (.store f) s = .next u ∧ WroteCell s u (effectiveAddress f s)
      (if f.target = 15 then s.pc + 1 else s.readReg f.target) c := by
  obtain ⟨⟨_, hsize⟩, _⟩ := s.mem.wf_iff.1 hwf
  rw [Config.maxMemSize] at hsize
  obtain ⟨_, store⟩ := storeWritesTheCellOrFaults
  obtain ⟨_, fits⟩ := store f s (effectiveAddress f s) hp hwf rfl
  obtain ⟨c, _, _, completes⟩ := fits ⟨by omega, by omega⟩
  exact ⟨c, completes ⟨hlo, hhi⟩⟩

end Sys2Proof.Machine
end

section
/-! The program counter (10_state.md R25, R26; 44_control_transfer.md R190, R192): what an executed
instruction leaves in it, and where the next fetch reads. -/

namespace Sys2Proof.Machine

namespace WroteRegister
variable {s t : State} {i : RegIndex} {r : Int} {c : Cond}

theorem sint_pc (h : WroteRegister s t i r c) (hi : i = 15) : sint t.pc = r := by
  subst hi
  exact h.written (by decide)

/-- R190: with target 15 the next fetch reads the memory at the value written. -/
theorem fetch_eq (h : WroteRegister s t i r c) (hi : i = 15) : t.fetch = s.mem.read r := by
  rw [State.fetch, h.sint_pc hi, h.memory]

theorem readReg_eq {v : Word} (h : WroteRegister s t i (sint v) c) (hi : i ≠ 0) :
    t.readReg i = v :=
  BitVec.eq_of_toInt_eq (h.written hi)

end WroteRegister

/-- Settles O36: the next fetch is from register 15, which holds the value written. -/
theorem writingRegister15TransfersControl : Obligations.WritingRegister15TransfersControl := by
  intro f s htarget hp
  constructor
  · intro i hi hv
    rcases alu_cases i.opcode (operand1 f s) (operand2 f s) with ⟨r, fits, result⟩ | overflow
    · have wrote := wroteRegister_writeResult f s fits
      rw [exec_arith hi, predicated_of_result _ hp result, result]
      exact ⟨_, rfl, wrote.latch.1, wrote.fetch_eq htarget⟩
    · exact absurd (congrArg Prod.snd overflow) hv
  · intro hlo hhi hsize
    obtain ⟨_, u, hexec, wrote⟩ := exec_load_wroteRegister hp hlo hsize hhi
    exact ⟨u, hexec, wrote.latch.1, wrote.fetch_eq htarget⟩

/-- Settles O37: the sum of an ADD with operands r15 and r0, written to register 15. -/
theorem pcRelativeJumpCountsFromItself : Obligations.PcRelativeJumpCountsFromItself := by
  intro pred d s hp hlo hhi
  obtain ⟨_, add⟩ := addWritesTheSumOrFaults
  have hsum : sint s.pc + d = s.x 15 + (s.x 0 + d) := by rw [x_zero, zero_add]; rfl
  obtain ⟨_, fits⟩ := add ⟨pred, 15, 15, 0, d⟩ s _ hp hsum
  obtain ⟨c, u, _, hexec, wrote⟩ := fits ⟨hlo, hhi⟩
  exact ⟨u, hexec, wrote.sint_pc rfl, wrote.latch.1⟩

/-- The value of the program counter below the largest word is counted up exactly. -/
theorem sint_add_one {v : Word} (h : sint v < 2 ^ 31 - 1) : sint (v + 1) = sint v + 1 := by
  have hlo := BitVec.le_toInt v
  have hone : (1 : Word).toInt = 1 := rfl
  unfold sint at h ⊢
  rw [BitVec.toInt_add, hone]
  exact Int.bmod_eq_of_le (by omega) (by omega)

/-- Settles O39: a fetch succeeds below `MEM_SIZE` only, and that is at most 2^31 - 1. -/
theorem pcIncrementNeverWraps : Obligations.PcIncrementNeverWraps := by
  intro s w hwf hfetch
  obtain ⟨⟨_, hsize⟩, _⟩ := s.mem.wf_iff.1 hwf
  rcases fetch_cases s with ⟨inside, _⟩ | ⟨_, fails⟩
  · obtain ⟨_, hhi⟩ := (inRange_iff _ _).1 inside
    rw [Config.maxMemSize] at hsize
    exact sint_add_one (by omega)
  · cases fails.symm.trans hfetch

/-- An instruction that leaves the core Running moves the program counter to the next address, or
has target 15 and writes there its ALU result or the cell loaded. -/
theorem ExecEnd.pc_cases {s t : State} {i : Instr} (h : ExecEnd s i t) (running : t.halted = false) :
    t.pc = s.pc + 1 ∨
      (i.fields.target = 15 ∧ predicateAdmits s.cond i.fields.pred = true ∧
        ((isAlu i.opcode = true ∧
            sint t.pc = (alu i.opcode (operand1 i.fields s) (operand2 i.fields s)).1) ∨
          (isLoad i.opcode = true ∧
            s.mem.read (effectiveAddress i.fields s) = some t.pc))) := by
  cases h with
  | halts | overflows | misses => cases running
  | skips | stores => exact .inl rfl
  | @computes i r arith admitted fits result =>
    have wrote := wroteRegister_writeResult i.fields s fits
    by_cases htarget : i.fields.target = 15
    · refine .inr ⟨htarget, admitted, .inl ⟨arith, ?_⟩⟩
      rw [result]
      exact wrote.sint_pc htarget
    · exact .inl (wrote.pc_next htarget)
  | @loads f admitted fits inside =>
    have wrote := wroteRegister_loaded f s (effectiveAddress f s)
      (s.mem.cellAt (effectiveAddress f s).toNat)
    by_cases htarget : f.target = 15
    · refine .inr ⟨htarget, admitted, .inr ⟨rfl, ?_⟩⟩
      have loaded := BitVec.eq_of_toInt_eq (wrote.sint_pc htarget)
      exact (if_pos inside).trans (congrArg some loaded.symm)
    · exact .inl (wrote.pc_next htarget)

/-- Settles O38: a step that leaves the core Running is one of an instruction, which starts at the
old program counter. -/
theorem pcMovesByOneOrByAWriteToIt : Obligations.PcMovesByOneOrByAWriteToIt := by
  intro s t hstep running
  cases stepCase_of_step hstep with
  | fetchFaults | illegal => cases running
  | @runs w i _ _ fetch decoded ends =>
    rcases ends.pc_cases running with advanced | ⟨htarget, admitted, written⟩
    · exact .inl advanced
    · exact .inr ⟨w, i, fetch, decoded, htarget, admitted, written⟩

end Sys2Proof.Machine
end

section
/-! Memory as one array of cells that STORE, LOAD, the fetch and the host share (20_memory.md R53 to
R55, R60 to R65). -/

namespace Sys2Proof.Machine

theorem read_of_inRange {m : Memory} {a : Int} (inside : m.inRange a = true) :
    m.read a = some (m.cellAt a.toNat) :=
  if_pos inside

theorem read_of_not_inRange {m : Memory} {a : Int} (outside : m.inRange a = false) :
    m.read a = none :=
  if_neg (ne_true_of_eq_false outside)

theorem write_of_inRange {m : Memory} {a : Int} (v : Word) (inside : m.inRange a = true) :
    m.write a v = some (m.setCell a.toNat v) :=
  if_pos inside

theorem write_of_not_inRange {m : Memory} {a : Int} (v : Word) (outside : m.inRange a = false) :
    m.write a v = none :=
  if_neg (ne_true_of_eq_false outside)

/-- Reads at other addresses do not see a cell that was set, inside memory or outside. -/
theorem read_setCell_other (m : Memory) {a b : Int} (v : Word) (ha : 0 ≤ a) (hb : b ≠ a) :
    (m.setCell a.toNat v).read b = m.read b := by
  rcases read_cases m b with ⟨inside, reads⟩ | ⟨outside, fails⟩
  · obtain ⟨hlo, _⟩ := (inRange_iff m b).1 inside
    have inside' : (m.setCell a.toNat v).inRange b = true := inside
    rw [reads, read_of_inRange inside', cellAt_setCell_other _ _ (by omega)]
  · exact (read_of_not_inRange (m := m.setCell a.toNat v) outside).trans fails.symm

/-- Settles O29: the write sets one cell, and the range test does not look at cells. -/
theorem memoryReadsBackWhatWasWritten : Obligations.MemoryReadsBackWhatWasWritten := by
  intro m a v hwf
  constructor
  · intro ha
    have inside := (inRange_iff m a).2 ha
    refine ⟨_, write_of_inRange v inside, ?_, fun b => read_setCell_other m v ha.1, rfl,
      setCell_wf v hwf (by omega)⟩
    have inside' : (m.setCell a.toNat v).inRange a = true := inside
    rw [read_of_inRange inside', cellAt_setCell_same v hwf]
  · intro ha
    have outside := (inRange_eq_false_iff m a).2 ha
    exact ⟨write_of_not_inRange v outside, read_of_not_inRange outside⟩

/-- Settles O30: the STORE sets the cell that the LOAD then writes to its target. -/
theorem storeThenLoadReturnsValue : Obligations.StoreThenLoadReturnsValue := by
  intro f g s t hwf hp hlo hhi hstore hp' hea htarget
  obtain ⟨⟨_, hmax⟩, _⟩ := s.mem.wf_iff.1 hwf
  rw [Config.maxMemSize] at hmax
  obtain ⟨c, t', hstore', stored⟩ := exec_store_wroteCell hwf hp hlo hhi
  cases hstore'.symm.trans hstore
  have hsize := stored.size
  obtain ⟨c', u, hload, loaded⟩ := exec_load_wroteRegister (f := g) (s := t) hp'
    (by omega) (by omega) (by omega)
  exact ⟨u, hload, by rw [loaded.readReg_eq htarget, hea, stored.written]⟩

/-- Settles O31: the STORE leaves the program counter at the next address, whose cell it has set. -/
theorem storeIsSeenByTheNextFetch : Obligations.StoreIsSeenByTheNextFetch := by
  intro s w f hwf hrun hfetch hdecode hp hea hsize
  have hnext := pcIncrementNeverWraps s w hwf hfetch
  have hpc : 0 ≤ sint s.pc := by
    rcases fetch_cases s with ⟨inside, _⟩ | ⟨_, fails⟩
    · exact ((inRange_iff _ _).1 inside).1
    · cases fails.symm.trans hfetch
  obtain ⟨c, t, hexec, stored⟩ := exec_store_wroteCell (f := f) (s := s.observe w) hwf hp
    (by rw [effectiveAddress_observe, hea]; omega)
    (by rw [effectiveAddress_observe, hea]; exact hsize)
  rw [effectiveAddress_observe, hea] at stored
  refine ⟨t, (step_of_decode_ok hrun hfetch hdecode).trans hexec, stored.latch.1.trans hrun,
    stored.pc_next, ?fetched⟩
  case fetched =>
    have hpc' : sint t.pc = sint s.pc + 1 := by rw [stored.pc_next]; exact hnext
    have inside : t.mem.inRange (sint s.pc + 1) = true := by
      rw [inRange_iff, stored.size]
      exact ⟨by omega, hsize⟩
    rw [State.fetch, hpc', read_of_inRange inside, stored.written]
    rfl

/-- Settles O32: of the ends of a step only that of an executed STORE sets a cell, and it sets no
other. -/
theorem onlyAnExecutedStoreChangesACell : Obligations.OnlyAnExecutedStoreChangesACell := by
  intro s t a hwf hstep changed
  cases stepCase_of_step hstep with
  | fetchFaults | illegal => exact absurd rfl changed
  | @runs w i _ _ fetch decoded ends =>
    have hea : effectiveAddress i.fields s = a := by
      by_contra other
      exact changed (ends.cellAt_other (Ne.symm other))
    rcases ends.mem_cases with unchanged | ⟨f, rfl, admitted, _, stored⟩
    · exact absurd (congrArg (Memory.cellAt · a) unchanged) changed
    · have hea : effectiveAddress f s = a := hea
      refine ⟨w, f, fetch, decoded, admitted, hea, ?_⟩
      rw [stored, effectiveAddress_observe, hea, Int.toNat_natCast, observe_mem,
        cellAt_setCell_same _ hwf, readReg_advancePc_eq_ite]
      rfl

/-- Settles O46: the latch is tested first, then the address by the write. -/
theorem hostWritesMemoryOnlyWhileHalted : Obligations.HostWritesMemoryOnlyWhileHalted := by
  intro s a w
  refine ⟨fun halted ha => ?writes, fun halted ha => ?outside, fun running => ?secondWriter⟩
  case writes =>
    simp [react, hostWriteCell, halted, write_of_inRange w ((inRange_iff s.mem a).2 ha)]
  case outside =>
    simp [react, hostWriteCell, halted,
      write_of_not_inRange w ((inRange_eq_false_iff s.mem a).2 ha)]
  case secondWriter => simp [react, hostWriteCell, running]

end Sys2Proof.Machine
end

section
/-! The reset values and the fixed codes (10_state.md R28, R31, R36; 30_encoding.md R71, R75, R92). -/

namespace Sys2Proof.Machine

theorem x_afterReset (m : Memory) (tr : List Observation) (i : RegIndex) :
    (State.afterReset m tr).x i = 0 := by
  have hread : (State.afterReset m tr).readReg i = 0 := by
    unfold State.readReg
    split
    · rfl
    split
    · rw [afterReset_regs, Vector.getElem_replicate]
    · rfl
  rw [State.x, hread]
  rfl

/-- Settles O45: both states are those that reset leaves over a memory. -/
theorem hardwareResetLeavesResetValues : Obligations.HardwareResetLeavesResetValues :=
  ⟨fun s => ⟨s.hardwareReset, rfl, x_afterReset _ _, rfl, rfl, rfl, rfl⟩,
    x_afterReset _ _, rfl, rfl, rfl⟩

/-- Settles O10: seven fixed words, decoded. -/
theorem sampleWordsDecode : Obligations.SampleWordsDecode := by
  unfold Obligations.SampleWordsDecode
  decide

/-- Settles O11: the 64 opcodes. -/
theorem exactlyOneClassSignal : Obligations.ExactlyOneClassSignal := by
  unfold Obligations.ExactlyOneClassSignal
  decide

/-- Settles O42: the codes are the definitions. -/
theorem statusCodes : Obligations.StatusCodes :=
  ⟨⟨rfl, rfl, rfl, rfl⟩, rfl, rfl, rfl, rfl, rfl, rfl⟩

end Sys2Proof.Machine
end
